-- ==== Sys2Proof/Word.lean ====
section
/-! DEFINITION. The widths of the block's data (00_scope.md R10, R11): a byte, a command word, a binary64
register, a datum of the host's read port. -/

namespace Sys2Proof

/-- A byte: 8 bits, numbered 7..0 (R10). Also an 8-bit character code (R76). -/
abbrev Byte := BitVec 8

/-- A 32-bit command word (R70). -/
abbrev CmdWord := BitVec 32

/-- The IEEE 754 encoding of a binary64 value (R12, R31). -/
abbrev Binary64 := BitVec 64

/-- A datum of the host's read port: 64 bits, zero-extended (R40). -/
abbrev Datum := BitVec 64

end Sys2Proof
end

