-- ==== Sys2Proof/Config.lean ====
section
/-! DEFINITION. The configuration record (00_scope.md R7), and the model's free values: what the bus answers
(20_memory.md R57) and the one axis byte the spec gives no value for. -/

namespace Sys2Proof

/-- A digital input source: DIG_ADDR[s], an opaque identifier, and DIG_LEN[s], the bytes one read returns (R7). -/
structure DigSource where
  addr : Nat
  len : Nat
  deriving DecidableEq, Repr

/-- An analog input source: ADC_CH[j], an opaque identifier, and its calibration pair MIN_INPUT[j], MAX_INPUT[j] (R7). -/
structure AxisChannel where
  channel : Nat
  minInput : Int
  maxInput : Int
  deriving DecidableEq, Repr

/-- A blink rate of R185. -/
inductive BlinkRate where
  | halfHz
  | oneHz
  | twoHz
  deriving DecidableEq, Repr

/-- BLINK_FREQ: a bijection from the modes 1, 2, 3 to the three rates (R7, R185). One constructor per bijection; the
name lists the rates of modes 1, 2 and 3 in that order. -/
inductive BlinkFreq where
  | halfOneTwo
  | halfTwoOne
  | oneHalfTwo
  | oneTwoHalf
  | twoHalfOne
  | twoOneHalf
  deriving DecidableEq, Repr

/-- The configuration record of R7. NUM_DIG and AXIS_COUNT are the lengths of `digSources` and `axes`. -/
structure Config where
  /-- BUTTON_COUNT. -/
  buttonCount : Nat
  /-- NUM_DIG digital sources, in declaration order. -/
  digSources : List DigSource
  /-- AXIS_COUNT analog sources, in declaration order. -/
  axes : List AxisChannel
  /-- RAW_LO. -/
  rawLo : Int
  /-- RAW_HI. -/
  rawHi : Int
  /-- AUTO_WRITE. -/
  autoWrite : Bool
  /-- GLYPH as its entries, each a character code and its pattern. A code with no entry is a lookup miss (R151). -/
  glyph : List (Byte × Byte)
  /-- FB_CMD. -/
  fbCmd : Byte
  /-- CMD_OSC_ON. -/
  cmdOscOn : List Byte
  /-- CMD_DISPLAY_ON. -/
  cmdDisplayOn : List Byte
  /-- CMD_BLINK(m), m in 0..3. -/
  cmdBlink : Vector (List Byte) 4
  /-- BLINK_FREQ. -/
  blinkFreq : BlinkFreq
  /-- DISP_ADDR. -/
  dispAddr : Nat
  deriving DecidableEq, Repr

/-- What the BUS oracle answers to one transaction (R13, R56, R57). `ok` carries both what a digital source and what
an analog source would return; a transaction uses the part that its device gives (log entry 2). -/
inductive BusAnswer where
  /-- The transfer completes. -/
  | ok (bytes : List Byte) (sample : Int)
  /-- The transport reports an error. -/
  | err
  /-- The transfer never completes (R56). -/
  | never
  deriving DecidableEq, Repr, Inhabited

/-- FREE VALUE: the k-th answer the bus gives once the answers already decided are used up (R57: "free inputs of the
step"). Nothing constrains it (log entry 2). -/
opaque Config.busDraw : Nat → BusAnswer

/-- FREE VALUE: the byte ENCODE gives an axis register that holds no finite value. R31 says SAMPLE never produces
one, and R122 gives no result for one (log entry 10). -/
opaque Config.axisByteNotFinite : Binary64 → Byte

/-- `GK_GLYPHS` of 93_implementation_defined.md: one legal value of the parameter GLYPH, used by the reference
configuration and by the tests, never by an instruction's meaning. -/
def Config.gkGlyphs : List (Byte × Byte) :=
  [(0x30#8, 0x3F#8), (0x31#8, 0x06#8), (0x32#8, 0x5B#8), (0x33#8, 0x4F#8), (0x34#8, 0x66#8),
   (0x35#8, 0x6D#8), (0x36#8, 0x7D#8), (0x37#8, 0x07#8), (0x38#8, 0x7F#8), (0x39#8, 0x6F#8)] ++
  [(0x41#8, 0x77#8), (0x62#8, 0x7C#8), (0x43#8, 0x39#8), (0x64#8, 0x5E#8), (0x45#8, 0x79#8),
   (0x46#8, 0x71#8), (0x2D#8, 0x40#8), (0x20#8, 0x00#8), (0x2A#8, 0x63#8)]

/-- The reference configuration: CFG-A of 95_test_vectors.md. The machine `State.reset` is built from it (DESIGN
CHOICE, log entry 1); CFG-A names no device identifiers and no BLINK_FREQ, so these are the model's. -/
def Config.reference : Config where
  buttonCount := 10
  digSources := [{ addr := 0, len := 2 }]
  axes := [{ channel := 1, minInput := 0, maxInput := 65535 }]
  rawLo := 0
  rawHi := 65535
  autoWrite := false
  glyph := Config.gkGlyphs
  fbCmd := 0x00#8
  cmdOscOn := [0x21#8]
  cmdDisplayOn := [0x81#8]
  cmdBlink := #v[[0x81#8], [0x83#8], [0x85#8], [0x87#8]]
  blinkFreq := .halfOneTwo
  dispAddr := 2

end Sys2Proof
end

