-- ==== Sys2Proof/Machine/Binary64.lean ====
section
/-! DEFINITION. binary64 arithmetic (00_scope.md R12), exact on integers: `rne64`, `roundHalfEven`, and the two axis
functions built from them, `norm` (40_aggregator.md R104) and `axisByte` (41_report_encoder.md R122).

Every finite binary64 value is a whole number of units of 2^-1074, so its exact value is one integer. -/

namespace Sys2Proof.Machine

/-- How many units of 2^-1074 make 1. -/
def b64Unit : Nat := 2 ^ 1074

/-- The exponent field, 11 bits. -/
def b64Exponent (v : Binary64) : Nat := (v.extractLsb' 52 11).toNat

/-- A binary64 value is finite unless its exponent field is all ones. -/
def b64Finite (v : Binary64) : Bool := decide (b64Exponent v ≠ 2047)

/-- The significand with its hidden bit, and the exponent counted from the subnormals' (a finite value is
`significand * 2^scale` units of 2^-1074, with its sign). -/
def b64Significand (v : Binary64) : Nat :=
  (v.extractLsb' 0 52).toNat + (if b64Exponent v = 0 then 0 else 2 ^ 52)

/-- See `b64Significand`. -/
def b64Scale (v : Binary64) : Nat := b64Exponent v - 1

/-- The exact value of a finite binary64, in units of 2^-1074. -/
def b64Value (v : Binary64) : Int :=
  let m : Nat := b64Significand v * 2 ^ b64Scale v
  if v.getLsbD 63 then -(m : Int) else (m : Int)

/-- The nearest integer to `n / d`, ties to even (R12). -/
def roundHalfEvenNat (n d : Nat) : Nat :=
  let q := n / d
  let r := n % d
  if 2 * r < d then q else if d < 2 * r then q + 1 else if q % 2 = 0 then q else q + 1

/-- The nearest integer to `n / d`, ties to even, with sign (R12). -/
def roundHalfEvenInt (n : Int) (d : Nat) : Int :=
  if n < 0 then -(roundHalfEvenNat n.natAbs d : Int) else (roundHalfEvenNat n.natAbs d : Int)

/-- How far the units of 2^-1074 are shifted so that `n / d` fits a 53-bit significand. -/
def rneScale (n d : Nat) : Nat := (n * b64Unit / d).log2 - 52

/-- The magnitude bits of the nearest binary64 to `n / d`, ties to even. Adding the rounded significand to the scale
carries into the exponent field when it rounds up to 2^53; past the largest finite value it is infinity, as IEEE 754
rounds (log entry 11: no value the block computes gets there). -/
def rneMagnitude (n d : Nat) : Nat :=
  let k := rneScale n d
  min (k * 2 ^ 52 + roundHalfEvenNat (n * b64Unit) (d * 2 ^ k)) (2047 * 2 ^ 52)

/-- `rne64(num / den)` (R12): the nearest binary64 to an exact rational, ties to even; an exact 0 is +0. -/
def rne64 (num : Int) (den : Nat) : Binary64 :=
  BitVec.ofNat 64 ((if num < 0 then 2 ^ 63 else 0) + rneMagnitude num.natAbs den)

/-- `roundHalfEven(x)` for a finite binary64 x (R12). -/
def roundHalfEven (x : Binary64) : Int := roundHalfEvenInt (b64Value x) b64Unit

/-- `u8(x) = x mod 256` (R11). -/
def u8 (x : Int) : Byte := BitVec.ofInt 8 x

/-- `s8(b)`: the signed value of a byte (R11). -/
def s8 (b : Byte) : Int := b.toInt

/-- `norm(j, n)`: one exact division, rounded once; nothing is clamped (R104, R105). -/
def norm (a : AxisChannel) (n : Int) : Binary64 := rne64 (n - a.minInput) (a.maxInput - a.minInput).toNat

/-- `rne64(255 * v)` (R122). -/
def axisProduct (v : Binary64) : Binary64 := rne64 (255 * b64Value v) b64Unit

/-- `axisByte(v) = u8(roundHalfEven(rne64(255 * v)) - 128)` (R122, R123). R12 gives `roundHalfEven` finite values
only; for the rest, which no SAMPLE produces (R31), the byte is a free value (log entry 10). -/
def axisByte (v : Binary64) : Byte :=
  if b64Finite v && b64Finite (axisProduct v) then u8 (roundHalfEven (axisProduct v) - 128)
  else Config.axisByteNotFinite v

end Sys2Proof.Machine
end

