-- ==== Sys2Proof/Machine/Causes.lean ====
section
/-! DEFINITION. The causes STATUS records and their codes (60_exceptions.md R201, R207; 10_state.md R22). -/

namespace Sys2Proof.Machine

/-- FAULT_CAUSE (R201). The reserved codes 0xA to 0xF are never produced, so they have no constructor. -/
inductive FaultCause where
  /-- NONE: no fault. -/
  | none
  /-- CONFIG_CAPACITY: at reset, DIG_CAPACITY < BUTTON_COUNT. -/
  | configCapacity
  /-- CONFIG_CALIBRATION: at reset, some MIN_INPUT[j] >= MAX_INPUT[j]. -/
  | configCalibration
  /-- CONFIG_PARAM: at reset, a parameter outside its admitted range. -/
  | configParam
  /-- CONFIG_BLINK: SET_BLINK with M > 3. -/
  | configBlink
  /-- PUT_RAW_RANGE: PUT_RAW with X >= 4. -/
  | putRawRange
  /-- PUT_RAW_LENGTH: PUT_RAW with L other than 1. -/
  | putRawLength
  /-- CONTRACT_LENGTH: never raised by this block (R131). -/
  | contractLength
  /-- UNINIT_READ: a command reads unwritten state (R20). -/
  | uninitRead
  /-- ILLEGAL_COMMAND: the word decodes to `illegal` (R78). -/
  | illegalCommand
  deriving DecidableEq, Repr

/-- The 4-bit code of a fault cause (R201). -/
def FaultCause.code : FaultCause → BitVec 4
  | .none => 0x0#4
  | .configCapacity => 0x1#4
  | .configCalibration => 0x2#4
  | .configParam => 0x3#4
  | .configBlink => 0x4#4
  | .putRawRange => 0x5#4
  | .putRawLength => 0x6#4
  | .contractLength => 0x7#4
  | .uninitRead => 0x8#4
  | .illegalCommand => 0x9#4

/-- TRANSIENT_CAUSE (R207). The reserved codes 0x4 to 0xF are never produced. -/
inductive TransientCause where
  /-- NONE: the last command completed, or no transient error yet. -/
  | none
  /-- DIG_READ_ERROR: a BusReadBlock returned err. -/
  | digReadError
  /-- ADC_READ_ERROR: a BusReadRaw returned err. -/
  | adcReadError
  /-- DISPLAY_WRITE_ERROR: a BusWrite returned err. -/
  | displayWriteError
  deriving DecidableEq, Repr

/-- The 4-bit code of a transient cause (R207). -/
def TransientCause.code : TransientCause → BitVec 4
  | .none => 0x0#4
  | .digReadError => 0x1#4
  | .adcReadError => 0x2#4
  | .displayWriteError => 0x3#4

/-- STATUS.RESULT (R22). The value 3 is never produced. -/
inductive Result where
  /-- OK: the last command completed. -/
  | ok
  /-- TRANSIENT: the last command ended with a transient error; the block is usable. -/
  | transient
  /-- FAULTED: a fatal fault has occurred; every command is refused until reset. -/
  | faulted
  deriving DecidableEq, Repr

/-- The 2-bit value of RESULT (R22). -/
def Result.code : Result → BitVec 2
  | .ok => 0#2
  | .transient => 1#2
  | .faulted => 2#2

end Sys2Proof.Machine
end

