-- ==== Sys2Proof/Machine/ConfigCheck.lean ====
section
/-! DEFINITION. The sizes derived from the configuration record (00_scope.md R8), the glyph lookup (42_glyph_render.md
R151) and the configuration check of reset (60_exceptions.md R204). -/

namespace Sys2Proof

/-- NUM_DIG (R7). -/
def Config.numDig (c : Config) : Nat := c.digSources.length

/-- AXIS_COUNT (R7). -/
def Config.axisCount (c : Config) : Nat := c.axes.length

/-- DIG_LEN[s] (R7); 0 where there is no source s. -/
def Config.digLen (c : Config) (s : Nat) : Nat := (c.digSources[s]?.map DigSource.len).getD 0

/-- BUTTON_BYTE_COUNT (R8). -/
def Config.buttonByteCount (c : Config) : Nat := (c.buttonCount + 7) / 8

/-- AXIS_BYTE_COUNT (R8). -/
def Config.axisByteCount (c : Config) : Nat := c.axisCount

/-- REPORT_BYTE_COUNT (R8). -/
def Config.reportByteCount (c : Config) : Nat := c.buttonByteCount + c.axisByteCount

/-- DIG_CAPACITY (R8). -/
def Config.digCapacity (c : Config) : Nat := 8 * (c.digSources.map DigSource.len).sum

/-- `glyph(c) = GLYPH[c]`; a lookup miss gives 0x00, the blank glyph (R151). -/
def Config.glyphOf (cfg : Config) (c : Byte) : Byte := (cfg.glyph.lookup c).getD 0#8

/-- CMD_BLINK(m) (R7, R187). -/
def Config.blinkCommand (cfg : Config) (m : BitVec 2) : List Byte := cfg.cmdBlink[m.toFin]

/-- The frequency of a blink mode, `none` for mode 0, off (R185). No rule of the block depends on it. -/
def BlinkFreq.rate : BlinkFreq → BitVec 2 → Option BlinkRate
  | f, m =>
    match m.toNat, f with
    | 1, .halfOneTwo | 1, .halfTwoOne | 2, .oneHalfTwo | 3, .oneTwoHalf | 2, .twoHalfOne | 3, .twoOneHalf => some .halfHz
    | 2, .halfOneTwo | 3, .halfTwoOne | 1, .oneHalfTwo | 1, .oneTwoHalf | 3, .twoHalfOne | 2, .twoOneHalf => some .oneHz
    | 3, .halfOneTwo | 2, .halfTwoOne | 3, .oneHalfTwo | 2, .oneTwoHalf | 1, .twoHalfOne | 1, .twoOneHalf => some .twoHz
    | _, _ => none

/-- A signed 32-bit integer: -2^31..2^31-1 (R7). -/
def inS32 (n : Int) : Bool := decide (-2147483648 ≤ n) && decide (n ≤ 2147483647)

/-- DIG_ADDR[s], ADC_CH[j] and DISP_ADDR (R7). -/
def Config.deviceIds (c : Config) : List Nat :=
  c.digSources.map DigSource.addr ++ c.axes.map AxisChannel.channel ++ [c.dispAddr]

/-- Check 1 of R204, CONFIG_PARAM: every parameter in its admitted range (R7). That the device identifiers are
distinct is R7's; R204's own list leaves it out (log entry 8). -/
def Config.paramsAdmitted (c : Config) : Bool :=
  decide (1 ≤ c.buttonCount) && decide (c.buttonCount ≤ 64) &&
  decide (1 ≤ c.numDig) &&
  c.digSources.all (fun d => decide (1 ≤ d.len) && decide (d.len ≤ 255)) &&
  decide (c.axisCount ≤ 255) &&
  c.axes.all (fun a => inS32 a.minInput && inS32 a.maxInput) &&
  inS32 c.rawLo && inS32 c.rawHi && decide (c.rawLo ≤ c.rawHi) &&
  c.glyph.all (fun e => !e.2.getLsbD 7) &&
  !c.cmdOscOn.isEmpty && !c.cmdDisplayOn.isEmpty && c.cmdBlink.toList.all (fun b => !b.isEmpty) &&
  decide c.deviceIds.Nodup

/-- Check 2 of R204, CONFIG_CAPACITY (R109). -/
def Config.capacityMet (c : Config) : Bool := decide (c.buttonCount ≤ c.digCapacity)

/-- Check 3 of R204, CONFIG_CALIBRATION. -/
def Config.calibrated (c : Config) : Bool := c.axes.all (fun a => decide (a.minInput < a.maxInput))

/-- R204: the first check that fails, in the order of the rule; `none` if all pass. -/
def Config.check (c : Config) : Machine.FaultCause :=
  if !c.paramsAdmitted then .configParam
  else if !c.capacityMet then .configCapacity
  else if !c.calibrated then .configCalibration
  else .none

end Sys2Proof
end

