-- ==== Sys2Proof/Syntax.lean ====
section
/-! DEFINITION. The command set: one constructor per row of spec/opcode_table.json (30_encoding.md R71). -/

namespace Sys2Proof

/-- A decoded command with its operands (R71 to R77). Every operand field has the width of its encoding field, so a
term is a command as the HOST can issue it, operands outside their legal range included (R74, R75). -/
inductive Instr where
  /-- SAMPLE (R100). -/
  | sample
  /-- ENCODE (R120). -/
  | encode
  /-- SHOULD_SEND; `force` is the flag F (R73, R126). -/
  | shouldSend (force : Bool)
  /-- COMMIT_SENT (R129). -/
  | commitSent
  /-- RENDER; `text` is the operand TEXT_IN (R76, R155). -/
  | render (text : List Byte)
  /-- PUT_RAW; `len` is L, `idx` is X, `val` is V (R74, R154). -/
  | putRaw (len : BitVec 4) (idx : Byte) (val : Byte)
  /-- CLEAR; `force` is the flag F, force_show (R73, R182). -/
  | clear (force : Bool)
  /-- SHOW (R181). -/
  | showFb
  /-- INITIALIZE (R183). -/
  | initDisplay
  /-- SET_BLINK; `mode` is M (R75, R184). -/
  | setBlink (mode : Byte)
  deriving DecidableEq, Repr

/-- What the HOST presents on the command port: a command word, and the text operand TEXT_IN (R6, R76). -/
structure Command where
  word : CmdWord
  text : List Byte := []
  deriving DecidableEq, Repr

end Sys2Proof
end

