-- ==== Sys2Proof/Machine/State.lean ====
section
/-! DEFINITION. The machine's state (10_state.md), its reset (70_reset_and_hazards.md R230, 10_state.md R42), and the
reasons a step can stop. -/

namespace Sys2Proof.Machine

/-- BTN_STATE and AXIS_STATE, which SAMPLE latches together (R30, R31, R106). -/
structure Sample where
  /-- BTN_STATE[i], element i; true is 1, pressed. -/
  btn : List Bool
  /-- AXIS_STATE[j], element j. -/
  axis : List Binary64
  deriving DecidableEq, Repr

/-- One bus transaction as BUS_LOG records it (R33). -/
inductive BusEvent where
  | rdBlk (s : Nat) (bytes : List Byte)
  | rdBlkErr (s : Nat)
  | rdRaw (j : Nat) (n : Int)
  | rdRawErr (j : Nat)
  | wr (bytes : List Byte)
  | wrErr (bytes : List Byte)
  deriving DecidableEq, Repr

/-- BUS_LOCK (R36). -/
inductive BusLock where
  | free
  | held
  deriving DecidableEq, Repr

/-- Everything the block holds. An unwritten register is `none`: the spec gives it no value (R20), so the valid bits of
STATUS (R26, R27) are not stored a second time but read off (`Machine/Flags.lean`; log entry 7). -/
structure State where
  /-- The configuration record loaded at reset (R7, R230). -/
  cfg : Config
  /-- STATUS.RESULT (R22). -/
  result : Result
  /-- STATUS.FAULT_CAUSE (R23). -/
  faultCause : FaultCause
  /-- STATUS.TRANSIENT_CAUSE (R24). -/
  transientCause : TransientCause
  /-- STATUS.SEND (R25). -/
  send : Bool
  /-- STATUS.SEND_VALID (R25). -/
  sendValid : Bool
  /-- BTN_STATE and AXIS_STATE (R30, R31); SAMPLE_VALID is whether they are written (R26). -/
  sample : Option Sample
  /-- REPORT (R32); REPORT_VALID is whether it is written (R26). -/
  report : Option (List Byte)
  /-- SHADOW (R32); SHADOW_VALID is whether it is written (R26). -/
  shadow : Option (List Byte)
  /-- CELL[i], i < 4 (R34); CELL_WRITTEN[i] is whether it is written (R27). -/
  cells : Vector (Option Byte) 4
  /-- BLINK_MODE (R29); BLINK_VALID is whether it is written (R27). -/
  blinkMode : Option (BitVec 2)
  /-- BUS_LOG, oldest event first (R33). -/
  busLog : List BusEvent
  /-- BUS_LOCK (R36). -/
  busLock : BusLock
  /-- The model's own: the commands the HOST has still to issue, oldest first (R6, log entry 4). -/
  commands : List Command
  /-- The model's own: the bus answers already decided, oldest first (R57, log entry 2). -/
  busAnswers : List BusAnswer
  /-- The model's own: how many free answers `Config.busDraw` have been drawn (R57, log entry 2). -/
  busDraws : Nat
  deriving DecidableEq, Repr

/-- R230 and R42: the block right after reset under a configuration record, whatever it held before. No bus
transaction is issued; the configuration check decides between OK and FAULTED. -/
def State.resetWith (cfg : Config) : State where
  cfg := cfg
  result := if cfg.check = .none then .ok else .faulted
  faultCause := cfg.check
  transientCause := .none
  send := false
  sendValid := false
  sample := none
  report := none
  shadow := none
  cells := #v[none, none, none, none]
  blinkMode := none
  busLog := []
  busLock := .free
  commands := []
  busAnswers := []
  busDraws := 0

/-- The machine after reset under the reference configuration (DESIGN CHOICE, log entry 1). -/
def State.reset : State := State.resetWith Config.reference

/-- Why a step has no end. -/
inductive Fault where
  /-- Raised by a bus primitive whose transfer never completes (R56: "a hang, not an error"). The command has no end
  state. Safe: nothing can be claimed of what follows (log entry 3). -/
  | busHang
  deriving DecidableEq, Repr

/-- Why an instruction has no meaning. -/
inductive Refusal where
  /-- Raised by `exec` for an instruction that has no meaning yet; no arm raises it now. Safe. -/
  | notModelled (mnemonic : String)
  deriving DecidableEq, Repr

end Sys2Proof.Machine
end

