-- ==== Sys2Proof/Machine/Ops.lean ====
section
/-! DEFINITION. The operations every command is built from: how a command ends (60_exceptions.md R200, R202, R208),
the bus primitives (00_scope.md R13, 20_memory.md R53 to R57) and the cell write (42_glyph_render.md R153). -/

namespace Sys2Proof.Machine

/-! ### How a command ends -/

/-- `complete`: RESULT = OK, and TRANSIENT_CAUSE back to 0 (R13, R22, R24). -/
def State.complete (s : State) : State := { s with result := .ok, transientCause := .none }

/-- `raise Fault(c)`, fault entry (R202): RESULT and FAULT_CAUSE, and nothing else. There is no vector, no saved state
and no return but reset (R202, R211). -/
def State.raiseFault (s : State) (c : FaultCause) : State := { s with result := .faulted, faultCause := c }

/-- `raise Transient(c)` (R208). The bus primitive that failed has already released the bus lock (R54). -/
def State.raiseTransient (s : State) (c : TransientCause) : State :=
  { s with result := .transient, transientCause := c }

/-! ### Register writes -/

/-- `cellWrite(i, v)` for i < 4 (R153). -/
def State.cellWrite (s : State) (i : Nat) (v : Byte) : State := { s with cells := s.cells.setIfInBounds i (some v) }

/-- The writes of `vs` to the cells from cell `i` on, in order. -/
def State.cellWrites (s : State) (i : Nat) : List Byte → State
  | [] => s
  | v :: vs => (s.cellWrite i v).cellWrites (i + 1) vs

/-- BTN_STATE and AXIS_STATE, latched all at once (R106). -/
def State.latchSample (s : State) (x : Sample) : State := { s with sample := some x }

/-- All bytes of REPORT (R120). -/
def State.writeReport (s : State) (bytes : List Byte) : State := { s with report := some bytes }

/-- All bytes of SHADOW, in one indivisible step (R60, R129). -/
def State.writeShadow (s : State) (bytes : List Byte) : State := { s with shadow := some bytes }

/-- SEND and SEND_VALID (R25). -/
def State.writeSend (s : State) (b : Bool) : State := { s with send := b, sendValid := true }

/-- BLINK_MODE and BLINK_VALID (R184). -/
def State.writeBlinkMode (s : State) (m : BitVec 2) : State := { s with blinkMode := some m }

/-! ### The bus -/

/-- BUS_LOCK (R36, R54). -/
def State.setLock (s : State) (l : BusLock) : State := { s with busLock := l }

/-- One event at the end of BUS_LOG (R33). -/
def State.appendEvent (s : State) (e : BusEvent) : State := { s with busLog := s.busLog ++ [e] }

/-- The k-th answer the bus gives from here: first the answers already decided, then the free values (R57). -/
def State.answerAt (s : State) (k : Nat) : BusAnswer :=
  match s.busAnswers[k]? with
  | some a => a
  | none => Config.busDraw (s.busDraws + (k - s.busAnswers.length))

/-- The oracle after `k` of its answers are used. -/
def State.dropAnswers (s : State) (k : Nat) : State :=
  { s with busAnswers := s.busAnswers.drop k, busDraws := s.busDraws + (k - s.busAnswers.length) }

/-- How a bus primitive ends: with data, with an error, or never (R13, R56). -/
inductive BusResult (α : Type) where
  | ok (a : α) (s : State)
  | err (s : State)
  | hung
  deriving Repr

/-- One bus transaction (R13, R54): acquire the lock, transfer, record one event, release the lock on success and on
failure alike. A lock already held is taken over (log entry 13). `accept` gives the answer the shape of the device (R57). -/
def State.transact {α : Type} (s : State) (accept : List Byte → Int → α) (okEvent : α → BusEvent) (errEvent : BusEvent) :
    BusResult α :=
  let answer := (s.setLock .held).answerAt 0
  let s1 := (s.setLock .held).dropAnswers 1
  match answer with
  | .ok bytes n => .ok (accept bytes n) ((s1.appendEvent (okEvent (accept bytes n))).setLock .free)
  | .err => .err ((s1.appendEvent errEvent).setLock .free)
  | .never => .hung

/-- A block of exactly `len` bytes (R53, R57): the answer's bytes, cut or filled up to the length. Every block of that
length is the shape of itself, so no answer R57 allows is lost and none it forbids is added (log entry 2). -/
def shapeBlock (len : Nat) (bytes : List Byte) : List Byte := (List.range len).map (fun g => bytes.getD g 0#8)

/-- An integer in RAW_LO..RAW_HI (R13, R57), the answer itself when it lies there (log entry 2). -/
def shapeRaw (cfg : Config) (n : Int) : Int := max cfg.rawLo (min cfg.rawHi n)

/-- `BusReadBlock(k)` (R13, R53). -/
def State.busReadBlock (s : State) (k : Nat) : BusResult (List Byte) :=
  s.transact (fun bytes _ => shapeBlock (s.cfg.digLen k) bytes) (.rdBlk k) (.rdBlkErr k)

/-- `BusReadRaw(j)` (R13, R53). -/
def State.busReadRaw (s : State) (j : Nat) : BusResult Int :=
  s.transact (fun _ n => shapeRaw s.cfg n) (.rdRaw j) (.rdRawErr j)

/-- `BusWrite(bytes)` (R13, R53). -/
def State.busWrite (s : State) (bytes : List Byte) : BusResult Unit :=
  s.transact (fun _ _ => ()) (fun _ => .wr bytes) (.wrErr bytes)

/-- Several writes to the display driver in issue order; the first failing one ends the sequence (R55, R183, R209). -/
def State.busWrites (s : State) : List (List Byte) → BusResult Unit
  | [] => .ok () s
  | bytes :: rest =>
    match s.busWrite bytes with
    | .ok _ s1 => s1.busWrites rest
    | .err s1 => .err s1
    | .hung => .hung

/-- How a command ends after its display writes: `onOk`, or the transient error DISPLAY_WRITE_ERROR (R181 to R184,
R186: never retried), or not at all (R56). -/
def endDisplayWrite (r : BusResult Unit) (onOk : State → State) : Host.Outcome State Fault Refusal :=
  match r with
  | .ok _ s => .next (onOk s)
  | .err s => .next (s.raiseTransient .displayWriteError)
  | .hung => .fault .busHang

/-! ### The command port -/

/-- What the command port has for the block at the start of a step (R6, R203, R205). -/
inductive Issue where
  /-- The step is over without an instruction: no command waits, the block is FAULTED and refuses it, or the word is
  `illegal` and faults. -/
  | done (s : State)
  /-- Execute the instruction. -/
  | run (i : Instr) (s : State)
  deriving DecidableEq, Repr

end Sys2Proof.Machine
end

