-- ==== Sys2Proof/Machine/Aggregator.lean ====
section
/-! DEFINITION. The button/axis aggregator: SAMPLE (40_aggregator.md). -/

namespace Sys2Proof.Machine

/-- The bits of a byte, least significant first (R102). -/
def unpackByte (b : Byte) : List Bool := (List.range 8).map (fun k => b.getLsbD k)

/-- The raw bit stream of the blocks' bytes, concatenated in declaration order (R102). No bit is inverted (R110). -/
def bitStream (bytes : List Byte) : List Bool := bytes.flatMap unpackByte

/-- What SAMPLE latches from the bytes and the raw samples: the stream cut to BUTTON_COUNT bits (R103), every raw
sample normalised with its own calibration pair (R104). -/
def sampleOf (cfg : Config) (bytes : List Byte) (raws : List Int) : Sample where
  btn := (bitStream bytes).take cfg.buttonCount
  axis := List.zipWith norm cfg.axes raws

/-- One BusReadBlock for each source in the list, in order, and their bytes concatenated; the first failure ends it
(R101, R107). -/
def State.readBlocks (s : State) : List Nat → BusResult (List Byte)
  | [] => .ok [] s
  | k :: ks =>
    match s.busReadBlock k with
    | .ok bytes s1 =>
      match s1.readBlocks ks with
      | .ok more s2 => .ok (bytes ++ more) s2
      | .err s2 => .err s2
      | .hung => .hung
    | .err s1 => .err s1
    | .hung => .hung

/-- One BusReadRaw for each source in the list, in order; the first failure ends it (R101, R107). -/
def State.readRaws (s : State) : List Nat → BusResult (List Int)
  | [] => .ok [] s
  | j :: js =>
    match s.busReadRaw j with
    | .ok n s1 =>
      match s1.readRaws js with
      | .ok more s2 => .ok (n :: more) s2
      | .err s2 => .err s2
      | .hung => .hung
    | .err s1 => .err s1
    | .hung => .hung

/-- SAMPLE (R100): all digital sources, then all analog ones (R101); the latch only when every transaction has
succeeded (R106). -/
def execSample (s : State) : Host.Outcome State Fault Refusal :=
  match s.readBlocks (List.range s.cfg.numDig) with
  | .hung => .fault .busHang
  | .err s1 => .next (s1.raiseTransient .digReadError)
  | .ok bytes s1 =>
    match s1.readRaws (List.range s.cfg.axisCount) with
    | .hung => .fault .busHang
    | .err s2 => .next (s2.raiseTransient .adcReadError)
    | .ok raws s2 => .next ((s2.latchSample (sampleOf s.cfg bytes raws)).complete)

end Sys2Proof.Machine
end

