-- ==== Sys2Proof/Machine/Operands.lean ====
section
/-! DEFINITION. The operand checks of the commands, in the order of their rules (60_exceptions.md R205, R206), the
fixed constants of 00_scope.md R9, and the framebuffer payload (43_display_transport.md R180). -/

namespace Sys2Proof.Machine

/-- CELL_COUNT = 4 (R9). -/
def cellCount : Nat := 4

/-- DOT = 0x80, the decimal-point segment (R9, R150). -/
def dot : Byte := 0x80#8

/-- DOT_CHAR = 0x2E, the code of "." (R9). -/
def dotChar : Byte := 0x2E#8

/-- PUT_RAW's checks: the index first, then the length (R154, R206). -/
def putRawFault (len : BitVec 4) (idx : Byte) : Option FaultCause :=
  if cellCount ≤ idx.toNat then some .putRawRange
  else if len ≠ 1#4 then some .putRawLength
  else none

/-- SET_BLINK's check (R184): the mode, or CONFIG_BLINK for M > 3. -/
def blinkOperand (mode : Byte) : Option (BitVec 2) :=
  if 3 < mode.toNat then none else some (mode.extractLsb' 0 2)

/-- The four cells as bytes, if every one is written (R181). -/
def State.cellBytes (s : State) : Option (List Byte) :=
  match s.cells[0], s.cells[1], s.cells[2], s.cells[3] with
  | some a, some b, some c, some d => some [a, b, c, d]
  | _, _, _, _ => none

/-- FBPAY = [FB_CMD, CELL[0], CELL[1], CELL[2], CELL[3]], FB[0] first (R51, R180). -/
def framebuffer (cfg : Config) (cells : List Byte) : List Byte := cfg.fbCmd :: cells

/-- `for i in 0..3: cellWrite(i, 0x00)` (R182, R183). -/
def State.clearCells (s : State) : State := s.cellWrites 0 (List.replicate cellCount 0x00#8)

/-- FBPAY of the cleared cells (R182). -/
def blankFramebuffer (cfg : Config) : List Byte := framebuffer cfg (List.replicate cellCount 0x00#8)

end Sys2Proof.Machine
end

