-- ==== Sys2Proof/Machine/Renderer.lean ====
section
/-! DEFINITION. The display renderer: RENDER and PUT_RAW (42_glyph_render.md). Neither touches the bus (R161). -/

namespace Sys2Proof.Machine

/-- The scan of R155 with `room` cells left to emit: the glyph bytes it emits, in order. A "." alone is DOT (R156); a
character with a "." after it absorbs the point (R157); any other is its glyph (R158); the scan stops when the cells
or the text run out (R159). -/
def renderScan (cfg : Config) : Nat → List Byte → List Byte
  | 0, _ => []
  | _ + 1, [] => []
  | room + 1, c :: rest =>
    if c = dotChar then dot :: renderScan cfg room rest
    else
      match rest with
      | [] => [cfg.glyphOf c]
      | d :: rest' =>
        if d = dotChar then (cfg.glyphOf c ||| dot) :: renderScan cfg room rest'
        else cfg.glyphOf c :: renderScan cfg room (d :: rest')

/-- The two modes of R162 (R37). -/
inductive ScanMode where
  | normal
  | pointConsumedNext
  deriving DecidableEq, Repr

/-- The two-state machine of R162, which reads the text one character per step; `room` is how many cells are left. -/
def renderMachine (cfg : Config) : ScanMode → Nat → List Byte → List Byte
  | _, _, [] => []
  | .pointConsumedNext, room, _ :: rest => renderMachine cfg .normal room rest
  | .normal, 0, _ :: _ => []
  | .normal, room + 1, c :: rest =>
    if c = dotChar then dot :: renderMachine cfg .normal room rest
    else if rest.head? = some dotChar then (cfg.glyphOf c ||| dot) :: renderMachine cfg .pointConsumedNext room rest
    else cfg.glyphOf c :: renderMachine cfg .normal room rest

/-- `vis(text)` (R163): the cells a scan of unlimited length would emit, one for each position the scan arrives at. -/
def visibleCells : List Byte → Nat
  | [] => 0
  | [_] => 1
  | c :: d :: rest =>
    if c ≠ dotChar ∧ d = dotChar then 1 + visibleCells rest else 1 + visibleCells (d :: rest)

/-- RENDER (R155): the emitted bytes go to the cells from cell 0 on; the cells after them keep their contents (R160). -/
def execRender (text : List Byte) (s : State) : Host.Outcome State Fault Refusal :=
  .next ((s.cellWrites 0 (renderScan s.cfg cellCount text)).complete)

/-- PUT_RAW (R154): no glyph lookup, no DOT merge. -/
def execPutRaw (len : BitVec 4) (idx : Byte) (val : Byte) (s : State) : Host.Outcome State Fault Refusal :=
  match putRawFault len idx with
  | some c => .next (s.raiseFault c)
  | none => .next ((s.cellWrite idx.toNat val).complete)

end Sys2Proof.Machine
end

