-- ==== Sys2Proof/Machine/Fields.lean ====
section
/-! DEFINITION. Laying a field into a 32-bit word (00_scope.md R10). -/

namespace Sys2Proof

/-- The 32-bit word whose bits from `pos` on are the field `v`, all others 0: `v << pos`. -/
def fieldAt {n : Nat} (pos : Nat) (v : BitVec n) : BitVec 32 := v.setWidth 32 <<< pos

end Sys2Proof
end

