-- ==== Sys2Proof/Machine/Flags.lean ====
section
/-! DEFINITION. The status fields that are computed: the valid bits (10_state.md R26, R27), the STATUS and CONFIG_INFO
words (R21, R28), and the SEND decision (41_report_encoder.md R126 to R128). -/

namespace Sys2Proof.Machine

/-- SAMPLE_VALID (R26). -/
def State.sampleValid (s : State) : Bool := s.sample.isSome

/-- REPORT_VALID (R26). -/
def State.reportValid (s : State) : Bool := s.report.isSome

/-- SHADOW_VALID (R26). -/
def State.shadowValid (s : State) : Bool := s.shadow.isSome

/-- CELL_WRITTEN[i], i < 4 (R27); a cell that does not exist is not written. -/
def State.cellWritten (s : State) (i : Nat) : Bool := (s.cells[i]?.getD none).isSome

/-- BLINK_VALID (R27). -/
def State.blinkValid (s : State) : Bool := s.blinkMode.isSome

/-- The STATUS word (R21); the reserved bits 3:2 and 31:22 read 0. -/
def State.statusWord (s : State) : BitVec 32 :=
  fieldAt 0 s.result.code ||| fieldAt 4 s.faultCause.code ||| fieldAt 8 s.transientCause.code |||
    fieldAt 12 (BitVec.ofBool s.send) ||| fieldAt 13 (BitVec.ofBool s.sendValid) |||
    fieldAt 14 (BitVec.ofBool s.sampleValid) ||| fieldAt 15 (BitVec.ofBool s.reportValid) |||
    fieldAt 16 (BitVec.ofBool s.shadowValid) ||| fieldAt 17 (BitVec.ofBool (s.cellWritten 0)) |||
    fieldAt 18 (BitVec.ofBool (s.cellWritten 1)) ||| fieldAt 19 (BitVec.ofBool (s.cellWritten 2)) |||
    fieldAt 20 (BitVec.ofBool (s.cellWritten 3)) ||| fieldAt 21 (BitVec.ofBool s.blinkValid)

/-- The CONFIG_INFO word (R28). Under a record that reset rejected a count may not fit its field, which then holds the
count's low bits (log entry 12). -/
def configInfoWord (c : Config) : BitVec 32 :=
  fieldAt 0 (BitVec.ofNat 7 c.buttonCount) ||| fieldAt 7 (BitVec.ofBool c.autoWrite) |||
    fieldAt 8 (BitVec.ofNat 8 c.axisCount) ||| fieldAt 16 (BitVec.ofNat 16 c.reportByteCount)

/-- What SHOULD_SEND returns (R126): 1 when forced (R128), 1 while nothing is committed (R127), else 1 iff some byte of
REPORT differs from SHADOW's. -/
def sendDecision (force : Bool) (count : Nat) (report : List Byte) (shadow : Option (List Byte)) : Bool :=
  if force then true
  else match shadow with
    | none => true
    | some sh => (List.range count).any (fun k => report[k]? != sh[k]?)

end Sys2Proof.Machine
end

