-- ==== Sys2Proof/Machine/ReportEncoder.lean ====
section
/-! DEFINITION. The change-detect report encoder: ENCODE, SHOULD_SEND, COMMIT_SENT (41_report_encoder.md). -/

namespace Sys2Proof.Machine

/-- Button byte k (R121): bit b is BTN_STATE[8k + b] if there is such a button, else 0. -/
def buttonByte (buttonCount : Nat) (btn : List Bool) (k : Nat) : Byte :=
  (List.range 8).foldl
    (fun byte b => if 8 * k + b < buttonCount && btn.getD (8 * k + b) false then byte ||| (1#8 <<< b) else byte) 0x00#8

/-- REPORT for a latched sample: the button bytes, then one byte per axis in declared order; no header, padding or
checksum (R120, R124). -/
def encodeReport (cfg : Config) (x : Sample) : List Byte :=
  (List.range cfg.buttonByteCount).map (buttonByte cfg.buttonCount x.btn) ++ x.axis.map axisByte

/-- ENCODE (R120). -/
def execEncode (s : State) : Host.Outcome State Fault Refusal :=
  match s.sample with
  | none => .next (s.raiseFault .uninitRead)
  | some x => .next ((s.writeReport (encodeReport s.cfg x)).complete)

/-- SHOULD_SEND (R126). A forced call faults too while there is no report. -/
def execShouldSend (force : Bool) (s : State) : Host.Outcome State Fault Refusal :=
  match s.report with
  | none => .next (s.raiseFault .uninitRead)
  | some r => .next ((s.writeSend (sendDecision force s.cfg.reportByteCount r s.shadow)).complete)

/-- COMMIT_SENT (R129). -/
def execCommitSent (s : State) : Host.Outcome State Fault Refusal :=
  match s.report with
  | none => .next (s.raiseFault .uninitRead)
  | some r => .next ((s.writeShadow r).complete)

end Sys2Proof.Machine
end

