-- ==== Sys2Proof/Machine/Transport.lean ====
section
/-! DEFINITION. The display transport boundary: SHOW, CLEAR, INITIALIZE, SET_BLINK (43_display_transport.md). -/

namespace Sys2Proof.Machine

/-- SHOW (R181). -/
def execShowFb (s : State) : Host.Outcome State Fault Refusal :=
  match s.cellBytes with
  | none => .next (s.raiseFault .uninitRead)
  | some cells => endDisplayWrite (s.busWrite (framebuffer s.cfg cells)) State.complete

/-- CLEAR (R182): the push only under AUTO_WRITE or force. -/
def execClear (force : Bool) (s : State) : Host.Outcome State Fault Refusal :=
  if s.cfg.autoWrite || force then
    endDisplayWrite (s.clearCells.busWrite (blankFramebuffer s.cfg)) State.complete
  else .next s.clearCells.complete

/-- INITIALIZE (R183): clear, write out whatever AUTO_WRITE is, oscillator on, display on. -/
def execInitDisplay (s : State) : Host.Outcome State Fault Refusal :=
  endDisplayWrite (s.clearCells.busWrites [blankFramebuffer s.cfg, s.cfg.cmdOscOn, s.cfg.cmdDisplayOn]) State.complete

/-- SET_BLINK (R184): the mode is latched only after its command is written. -/
def execSetBlink (mode : Byte) (s : State) : Host.Outcome State Fault Refusal :=
  match blinkOperand mode with
  | none => .next (s.raiseFault .configBlink)
  | some m => endDisplayWrite (s.busWrite (s.cfg.blinkCommand m)) (fun s1 => (s1.writeBlinkMode m).complete)

end Sys2Proof.Machine
end

