-- ==== Sys2Proof/Machine/Dispatch.lean ====
section
/-! DEFINITION. The meaning of every instruction: one arm per constructor of `Instr` (30_encoding.md R71). -/

namespace Sys2Proof.Machine

-- 40_aggregator.md, 41_report_encoder.md, 42_glyph_render.md, 43_display_transport.md, in the order of R71.
def exec (i : Instr) (s : State) : Host.Outcome State Fault Refusal :=
  match i with
  | .sample => Sys2Proof.Machine.execSample s
  | .encode => Sys2Proof.Machine.execEncode s
  | .shouldSend force => Sys2Proof.Machine.execShouldSend force s
  | .commitSent => Sys2Proof.Machine.execCommitSent s
  | .render text => Sys2Proof.Machine.execRender text s
  | .putRaw len idx val => Sys2Proof.Machine.execPutRaw len idx val s
  | .clear force => Sys2Proof.Machine.execClear force s
  | .showFb => Sys2Proof.Machine.execShowFb s
  | .initDisplay => Sys2Proof.Machine.execInitDisplay s
  | .setBlink mode => Sys2Proof.Machine.execSetBlink mode s

end Sys2Proof.Machine
end

