-- ==== Sys2Proof/WellFormed.lean ====
section
/-! DEFINITION. What is well formed on the command port, and which operands the spec calls legal.

Every term of `Instr` has an encoding, because each operand has exactly the width of its field: there is no ill-formed
instruction to refuse. Two things can be checked: that only RENDER comes with a text (R76), and that the operands
lie in the ranges R74 and R75 call legal. A command with illegal operands still decodes; its own check then raises
the fault (R74, R75). -/

namespace Sys2Proof

/-- RENDER's command word (R71, R80). -/
def renderWord : CmdWord := 0x50000000#32

/-- R76: "No other command takes it": a text is presented only with RENDER's word. -/
def Command.wellFormed (c : Command) : Bool :=
  c.text.isEmpty || c.word == renderWord

/-- The operand ranges the spec calls legal: PUT_RAW with L = 1 and X in 0..3 (R74), SET_BLINK with M in 0..3 (R75).
Every other command has no illegal operand. -/
def Instr.legalOperands : Instr → Bool
  | .sample => true
  | .encode => true
  | .shouldSend _ => true
  | .commitSent => true
  | .render _ => true
  | .putRaw len idx _ => len == 1#4 && decide (idx.toNat < 4)
  | .clear _ => true
  | .showFb => true
  | .initDisplay => true
  | .setBlink mode => decide (mode.toNat ≤ 3)

end Sys2Proof
end

