-- ==== Sys2Proof/Decode.lean ====
section
/-! DEFINITION. Decoding a command (30_encoding.md R77), the encoder, and the opcode table's rows (R82). -/

namespace Sys2Proof

/-- The field OP = `w[31:28]` (R70). -/
def opField (w : CmdWord) : BitVec 4 := w.extractLsb' 28 4

/-- The operand area `w[27:0]`, all of it must be 0 in format Z (R72). -/
def operandArea (w : CmdWord) : BitVec 28 := w.extractLsb' 0 28

/-- `w[27:1]`, must be 0 in format F (R73). -/
def reservedF (w : CmdWord) : BitVec 27 := w.extractLsb' 1 27

/-- The flag F = `w[0]` (R73). -/
def flagF (w : CmdWord) : Bool := w.getLsbD 0

/-- L = `w[27:24]` (R74). -/
def fieldL (w : CmdWord) : BitVec 4 := w.extractLsb' 24 4

/-- X = `w[23:16]` (R74). -/
def fieldX (w : CmdWord) : Byte := w.extractLsb' 16 8

/-- `w[15:8]`, must be 0 in format P (R74). -/
def reservedP (w : CmdWord) : Byte := w.extractLsb' 8 8

/-- V = `w[7:0]` in format P (R74), and M = `w[7:0]` in format M (R75). -/
def lowByte (w : CmdWord) : Byte := w.extractLsb' 0 8

/-- `w[27:8]`, must be 0 in format M (R75). -/
def reservedM (w : CmdWord) : BitVec 20 := w.extractLsb' 8 20

/-- R77, with the text operand of R76 given to RENDER; `none` is `illegal`. A text that comes with another command is
not looked at (log entry 6). -/
def decode (c : Command) : Option Instr :=
  match (opField c.word).toNat with
  | 0x1 => if operandArea c.word = 0 then some .sample else none
  | 0x2 => if operandArea c.word = 0 then some .encode else none
  | 0x3 => if reservedF c.word = 0 then some (.shouldSend (flagF c.word)) else none
  | 0x4 => if operandArea c.word = 0 then some .commitSent else none
  | 0x5 => if operandArea c.word = 0 then some (.render c.text) else none
  | 0x6 => if reservedP c.word = 0 then some (.putRaw (fieldL c.word) (fieldX c.word) (lowByte c.word)) else none
  | 0x7 => if reservedF c.word = 0 then some (.clear (flagF c.word)) else none
  | 0x8 => if operandArea c.word = 0 then some .showFb else none
  | 0x9 => if operandArea c.word = 0 then some .initDisplay else none
  | 0xA => if reservedM c.word = 0 then some (.setBlink (lowByte c.word)) else none
  | _ => none

/-- The word of format Z (R72). -/
def wordZ (op : BitVec 4) : CmdWord := fieldAt 28 op

/-- The word of format F (R73). -/
def wordF (op : BitVec 4) (f : Bool) : CmdWord := fieldAt 28 op ||| fieldAt 0 (BitVec.ofBool f)

/-- The word of format P (R74). -/
def wordP (op len : BitVec 4) (idx val : Byte) : CmdWord :=
  fieldAt 28 op ||| fieldAt 24 len ||| fieldAt 16 idx ||| fieldAt 0 val

/-- The word of format M (R75). -/
def wordM (op : BitVec 4) (mode : Byte) : CmdWord := fieldAt 28 op ||| fieldAt 0 mode

/-- The command word of an instruction (R71 to R75). -/
def encodeWord : Instr → CmdWord
  | .sample => wordZ 0x1#4
  | .encode => wordZ 0x2#4
  | .shouldSend f => wordF 0x3#4 f
  | .commitSent => wordZ 0x4#4
  | .render _ => wordZ 0x5#4
  | .putRaw len idx val => wordP 0x6#4 len idx val
  | .clear f => wordF 0x7#4 f
  | .showFb => wordZ 0x8#4
  | .initDisplay => wordZ 0x9#4
  | .setBlink m => wordM 0xA#4 m

/-- The text operand of an instruction: RENDER's, and none for the others (R76). -/
def encodeText : Instr → List Byte
  | .sample => []
  | .encode => []
  | .shouldSend _ => []
  | .commitSent => []
  | .render text => text
  | .putRaw _ _ _ => []
  | .clear _ => []
  | .showFb => []
  | .initDisplay => []
  | .setBlink _ => []

/-- What the HOST presents on the command port to issue `i` (R71 to R76). -/
def encodeCommand (i : Instr) : Command := { word := encodeWord i, text := encodeText i }

/-- A row of the opcode table: a word is legal for the row iff `(w & mask) == match` (R82). -/
structure OpcodeRow where
  mnemonic : String
  matchBits : CmdWord
  mask : CmdWord
  deriving DecidableEq, Repr

/-- spec/opcode_table.json (R82), in its order. -/
def opcodeTable : List OpcodeRow :=
  [⟨"SAMPLE", 0x10000000#32, 0xFFFFFFFF#32⟩, ⟨"ENCODE", 0x20000000#32, 0xFFFFFFFF#32⟩,
   ⟨"SHOULD_SEND", 0x30000000#32, 0xFFFFFFFE#32⟩, ⟨"COMMIT_SENT", 0x40000000#32, 0xFFFFFFFF#32⟩,
   ⟨"RENDER", 0x50000000#32, 0xFFFFFFFF#32⟩, ⟨"PUT_RAW", 0x60000000#32, 0xF000FF00#32⟩,
   ⟨"CLEAR", 0x70000000#32, 0xFFFFFFFE#32⟩, ⟨"SHOW", 0x80000000#32, 0xFFFFFFFF#32⟩,
   ⟨"INITIALIZE", 0x90000000#32, 0xFFFFFFFF#32⟩, ⟨"SET_BLINK", 0xA0000000#32, 0xFFFFFF00#32⟩]

/-- The word is legal for the row (R82). -/
def OpcodeRow.matchesWord (r : OpcodeRow) (w : CmdWord) : Bool := (w &&& r.mask) == r.matchBits

/-- The mnemonic of an instruction (R71). -/
def Instr.mnemonic : Instr → String
  | .sample => "SAMPLE"
  | .encode => "ENCODE"
  | .shouldSend _ => "SHOULD_SEND"
  | .commitSent => "COMMIT_SENT"
  | .render _ => "RENDER"
  | .putRaw _ _ _ => "PUT_RAW"
  | .clear _ => "CLEAR"
  | .showFb => "SHOW"
  | .initDisplay => "INITIALIZE"
  | .setBlink _ => "SET_BLINK"

/-- The command whose word has the low `nbits` bits of `w` and 0 above. The port takes whole 32-bit words, so there is
no byte order to lay out (R51, R79). -/
def tableCommand (nbits w : Nat) : Command := { word := BitVec.ofNat 32 (w % 2 ^ nbits) }

/-- The instruction the decoder reads from a row's bits, RENDER with the empty text. Longer words than 32 bits are no
commands (R79). -/
def decodeTableWord (nbits w : Nat) : Option Instr :=
  if nbits ≤ 32 then decode (tableCommand nbits w) else none

end Sys2Proof
end

