-- ==== Sys2Proof/Machine/Issue.lean ====
section
/-! DEFINITION. The command port: which command the block takes, and the check order before a command's own checks
(00_scope.md R6; 60_exceptions.md R203, R205). -/

namespace Sys2Proof.Machine

/-- The state with the oldest waiting command taken off the port. -/
def State.takeCommand (s : State) : State := { s with commands := s.commands.drop 1 }

/-- R205, steps 1 and 2. No command waits: the block is idle (R6, R218). FAULTED: the command is refused, not decoded,
and changes nothing (R203, log entry 5). An illegal word raises ILLEGAL_COMMAND (R78). -/
def State.issueNext (s : State) : Issue :=
  match s.commands with
  | [] => .done s
  | c :: _ =>
    if s.result = .faulted then .done s.takeCommand
    else
      match decode c with
      | none => .done (s.takeCommand.raiseFault .illegalCommand)
      | some i => .run i s.takeCommand

/-- The HOST puts commands on the port, after those that wait. -/
def State.withCommands (s : State) (cs : List Command) : State := { s with commands := s.commands ++ cs }

/-- The BUS decides its next answers, after those already decided. -/
def State.withAnswers (s : State) (as : List BusAnswer) : State := { s with busAnswers := s.busAnswers ++ as }

/-- The command the port gives next is `c`; the commands that wait come after it. -/
def State.withNextCommand (s : State) (c : Command) : State := { s with commands := c :: s.commands }

end Sys2Proof.Machine
end

