-- ==== Sys2Proof/Machine/Step.lean ====
section
/-! DEFINITION. One step of the block: one command from the port, executed to completion (00_scope.md R5, R6). -/

namespace Sys2Proof.Machine

/-- One step: R205's checks, then the command's own meaning. -/
def step (s : State) : Host.Outcome State Fault Refusal :=
  match s.issueNext with
  | .done s' => .next s'
  | .run i s' => exec i s'

/-- The state whose next command is the word `w`, with the empty text (log entry 4). -/
def State.withFetchWord (s : State) (nbits w : Nat) : State := s.withNextCommand (tableCommand nbits w)

end Sys2Proof.Machine
end

