-- ==== Sys2Proof/Machine/Assembler.lean ====
section
/-! DEFINITION. The assembler syntax of 30_encoding.md R80: one command per line to its command word and text operand. The
assembler is a tool of the HOST; the block sees its output only. Spaces and the quotes of RENDER: log entry 14. -/

namespace Sys2Proof.Machine

/-- A line without its leading spaces. -/
def skipSpaces : List Char → List Char
  | [] => []
  | c :: cs => if c.toNat = 0x20 then skipSpaces cs else c :: cs

/-- A line without leading and trailing spaces. -/
def trimSpaces (cs : List Char) : List Char := (skipSpaces (skipSpaces cs).reverse).reverse

/-- The first word of a line and what follows it, trimmed. -/
def firstWord (cs : List Char) : List Char × List Char :=
  let line := trimSpaces cs
  (line.takeWhile (fun c => c.toNat != 0x20), trimSpaces (line.dropWhile (fun c => c.toNat != 0x20)))

/-- The operands of a line, cut at its commas and trimmed. -/
def splitOperands : List Char → List (List Char)
  | [] => [[]]
  | c :: cs =>
    match splitOperands cs with
    | [] => [[]]
    | op :: ops => if c.toNat = 0x2C then [] :: op :: ops else (c :: op) :: ops

/-- The value of a digit in a base. -/
def digitValue (base : Nat) (c : Char) : Option Nat :=
  let n := c.toNat
  let v := if 0x30 ≤ n ∧ n ≤ 0x39 then n - 0x30 else if 0x41 ≤ n ∧ n ≤ 0x46 then n - 0x37
    else if 0x61 ≤ n ∧ n ≤ 0x66 then n - 0x57 else base
  if v < base then some v else none

/-- The number the digits write in a base, `acc` being what stands before them. -/
def digitsValue (base acc : Nat) : List Char → Option Nat
  | [] => some acc
  | c :: cs => (digitValue base c).bind (fun d => digitsValue base (acc * base + d) cs)

/-- An operand, decimal or 0x hexadecimal (R80). -/
def operandValue (cs : List Char) : Option Nat :=
  match trimSpaces cs with
  | [] => none
  | '0' :: 'x' :: d :: ds => digitsValue 16 0 (d :: ds)
  | d :: ds => digitsValue 10 0 (d :: ds)

/-- An operand that fits its field of `w` bits. -/
def operandField (w : Nat) (cs : List Char) : Option (BitVec w) :=
  (operandValue cs).bind (fun n => if n < 2 ^ w then some (BitVec.ofNat w n) else none)

/-- The flag word of SHOULD_SEND and CLEAR: nothing, or `force`. -/
def forceFlag (cs : List Char) : Option Bool :=
  if cs = [] then some false else if cs = ['f', 'o', 'r', 'c', 'e'] then some true else none

/-- RENDER's text: what stands between the quotes, each character one ASCII code. -/
def quotedText (cs : List Char) : Option (List Byte) :=
  match cs with
  | [] => none
  | q :: rest =>
    match rest.reverse with
    | [] => none
    | q' :: body =>
      if q.toNat = 0x22 ∧ q'.toNat = 0x22 ∧ body.all (fun c => decide (c.toNat < 128)) then
        some (body.reverse.map (fun c => BitVec.ofNat 8 c.toNat))
      else none

/-- `len=L`. -/
def lengthOperand (cs : List Char) : Option (BitVec 4) :=
  match trimSpaces cs with
  | 'l' :: 'e' :: 'n' :: '=' :: ds => operandField 4 ds
  | _ => none

/-- PUT_RAW's operands `x, v` with L = 1, or `x, v, len=L` (R80). -/
def putRawOperands (cs : List Char) : Option Instr :=
  match splitOperands cs with
  | [x, v] => (operandField 8 x).bind (fun x => (operandField 8 v).map (fun v => .putRaw 1#4 x v))
  | [x, v, l] =>
    (operandField 8 x).bind (fun x => (operandField 8 v).bind (fun v => (lengthOperand l).map (fun l => .putRaw l x v)))
  | _ => none

/-- The instruction a line writes (R80), by its mnemonic. -/
def assembleInstr (line : List Char) : Option Instr :=
  let op := (firstWord line).1
  let rest := (firstWord line).2
  if op = ['S', 'A', 'M', 'P', 'L', 'E'] then (if rest = [] then some .sample else none)
  else if op = ['E', 'N', 'C', 'O', 'D', 'E'] then (if rest = [] then some .encode else none)
  else if op = ['S', 'H', 'O', 'U', 'L', 'D', '_', 'S', 'E', 'N', 'D'] then (forceFlag rest).map .shouldSend
  else if op = ['C', 'O', 'M', 'M', 'I', 'T', '_', 'S', 'E', 'N', 'T'] then (if rest = [] then some .commitSent else none)
  else if op = ['R', 'E', 'N', 'D', 'E', 'R'] then (quotedText rest).map .render
  else if op = ['P', 'U', 'T', '_', 'R', 'A', 'W'] then putRawOperands rest
  else if op = ['C', 'L', 'E', 'A', 'R'] then (forceFlag rest).map .clear
  else if op = ['S', 'H', 'O', 'W'] then (if rest = [] then some .showFb else none)
  else if op = ['I', 'N', 'I', 'T', 'I', 'A', 'L', 'I', 'Z', 'E'] then (if rest = [] then some .initDisplay else none)
  else if op = ['S', 'E', 'T', '_', 'B', 'L', 'I', 'N', 'K'] then (operandField 8 rest).map .setBlink
  else none

/-- The command a line assembles to (R80). -/
def assemble (line : List Char) : Option Command := (assembleInstr line).map encodeCommand

end Sys2Proof.Machine
end

