-- ==== Sys2Proof/Machine/HostPort.lean ====
section
/-! DEFINITION. The host's read port (10_state.md R40) and its pseudo-instructions (30_encoding.md R81). A read changes
no state (00_scope.md R6): it is a function of the state, not a step (log entry 16). -/

namespace Sys2Proof.Machine

/-- FB[b], b < 5 (R34): FB_CMD, then the cells; `none` for a cell that is not written. -/
def State.framebufferAt (s : State) (b : Nat) : Option Byte :=
  if b = 0 then some s.cfg.fbCmd else (s.cells[b - 1]?.getD none)

/-- The host read map (R40). An address outside the map, and one whose register is unwritten, give no value (R20). The
rows that are always valid stand first, so that no count of a record that reset rejected can hide them (log entry
12); under an admitted record no two rows share an address. -/
def hostRead (s : State) (addr : BitVec 16) : Option Datum :=
  let a := addr.toNat
  if a = 0x0000 then some (s.statusWord.setWidth 64)
  else if a = 0x0001 then some ((configInfoWord s.cfg).setWidth 64)
  else if a = 0x0002 then s.blinkMode.map (fun m => m.setWidth 64)
  else if 0x5000 ≤ a ∧ a < 0x5005 then (s.framebufferAt (a - 0x5000)).map (fun b => b.setWidth 64)
  else if 0x6000 ≤ a ∧ a < 0x6100 then some ((s.cfg.glyphOf (BitVec.ofNat 8 (a - 0x6000))).setWidth 64)
  else if 0x1000 ≤ a ∧ a < 0x1000 + s.cfg.buttonCount then
    (s.sample.bind (fun x => x.btn[a - 0x1000]?)).map (fun b => (BitVec.ofBool b).setWidth 64)
  else if 0x2000 ≤ a ∧ a < 0x2000 + s.cfg.axisCount then s.sample.bind (fun x => x.axis[a - 0x2000]?)
  else if 0x3000 ≤ a ∧ a < 0x3000 + s.cfg.reportByteCount then
    (s.report.bind (fun r => r[a - 0x3000]?)).map (fun b => b.setWidth 64)
  else if 0x4000 ≤ a ∧ a < 0x4000 + s.cfg.reportByteCount then
    (s.shadow.bind (fun r => r[a - 0x4000]?)).map (fun b => b.setWidth 64)
  else none

/-- The HOST-side abbreviations of R81; the block never sees them. -/
inductive Pseudo where
  /-- CYCLE, and CYCLE force. -/
  | cycle (force : Bool)
  /-- SHOW_TEXT "t". -/
  | showText (text : List Byte)
  /-- BLANK. -/
  | blank
  deriving DecidableEq, Repr

/-- The commands a pseudo-instruction expands into (R81). -/
def Pseudo.expand : Pseudo → List Instr
  | .cycle force => [.sample, .encode, .shouldSend force]
  | .showText text => [.clear false, .render text, .showFb]
  | .blank => [.clear true]

end Sys2Proof.Machine
end

