-- ==== Sys2Proof/Safety.lean ====
section
/-! DEFINITION. The terms claims are stated in: a good state and a good run (70_reset_and_hazards.md R243), the
invariant every step keeps, the bus answers a command uses, and the HOST's duties (60_exceptions.md R213). -/

namespace Sys2Proof.Machine

/-! ### Good runs -/

/-- The block is usable: RESULT is not FAULTED (R203, R243). -/
abbrev State.usable (s : State) : Prop := s.result ≠ .faulted

/-- A run of `n` steps from `s` is good: it has an end, and RESULT is not FAULTED there (R243). -/
def goodRun (n : Nat) (s : State) : Prop :=
  match Sys2Proof.core.run n s with
  | .next s' => State.usable s'
  | _ => False

/-! ### The invariant -/

/-- What holds of every state a run reaches. -/
structure State.Inv (s : State) : Prop where
  /-- A usable block has a configuration record that reset admitted (R204, R230). -/
  config : s.usable → s.cfg.check = .none
  /-- FAULT_CAUSE is 0 exactly while RESULT is not FAULTED (R23, R202). -/
  fault : s.faultCause = .none ↔ s.usable
  /-- TRANSIENT_CAUSE is 0 when the last command completed, and a cause when it ended in a transient error (R24,
  R207). -/
  transientOk : s.result = .ok → s.transientCause = .none
  /-- See `transientOk`. -/
  transientErr : s.result = .transient → s.transientCause ≠ .none
  /-- BUS_LOCK is free between commands (R36, R54). -/
  lock : s.busLock = .free
  /-- BTN_STATE and AXIS_STATE have BUTTON_COUNT and AXIS_COUNT elements (R30, R31, R111). -/
  sampleShape : ∀ x, s.sample = some x → x.btn.length = s.cfg.buttonCount ∧ x.axis.length = s.cfg.axisCount
  /-- Every axis value latched is finite (R31). -/
  axisFinite : ∀ x, s.sample = some x → ∀ v ∈ x.axis, b64Finite v = true
  /-- REPORT has REPORT_BYTE_COUNT bytes (R32, R124). -/
  reportLength : ∀ r, s.report = some r → r.length = s.cfg.reportByteCount
  /-- SHADOW has REPORT_BYTE_COUNT bytes (R32). -/
  shadowLength : ∀ r, s.shadow = some r → r.length = s.cfg.reportByteCount
  /-- SEND reads 0 while SEND_VALID is 0 (R25). -/
  sendZero : s.sendValid = false → s.send = false

/-! ### The bus answers a command uses -/

/-- The next `n` answers of the bus all complete without error. -/
def State.busOk (s : State) (n : Nat) : Prop := ∀ k < n, ∃ bytes m, s.answerAt k = .ok bytes m

/-- The most bus transactions a command issues under a record (R101, R181 to R184). -/
def maxTransactions (c : Config) : Instr → Nat
  | .sample => c.numDig + c.axisCount
  | .encode => 0
  | .shouldSend _ => 0
  | .commitSent => 0
  | .render _ => 0
  | .putRaw _ _ _ => 0
  | .clear _ => 1
  | .showFb => 1
  | .initDisplay => 3
  | .setBlink _ => 1

/-- The bytes an answer carries for a digital source. -/
def answerBytes : BusAnswer → List Byte
  | .ok bytes _ => bytes
  | .err => []
  | .never => []

/-- The integer an answer carries for an analog source. -/
def answerSample : BusAnswer → Int
  | .ok _ n => n
  | .err => 0
  | .never => 0

/-- The block digital source k returns to a SAMPLE issued in `s` whose transactions all succeed (R101). -/
def State.blockAnswer (s : State) (k : Nat) : List Byte :=
  shapeBlock (s.cfg.digLen k) (answerBytes (s.answerAt k))

/-- The raw sample analog source j returns to that SAMPLE: its transaction comes after all the digital ones (R101). -/
def State.rawAnswer (s : State) (j : Nat) : Int :=
  shapeRaw s.cfg (answerSample (s.answerAt (s.cfg.numDig + j)))

/-- `B` of R102: the blocks' bytes, concatenated in declaration order. -/
def State.sampleBytes (s : State) : List Byte := (List.range s.cfg.numDig).flatMap s.blockAnswer

/-- `stream[t]` of R102. -/
def streamBit (bytes : List Byte) (t : Nat) : Bool := (bytes.getD (t / 8) 0#8).getLsbD (t % 8)

/-- The events of a SAMPLE whose transactions all succeed, in issue order (R33, R101). -/
def State.sampleEvents (s : State) : List BusEvent :=
  (List.range s.cfg.numDig).map (fun k => .rdBlk k (s.blockAnswer k)) ++
    (List.range s.cfg.axisCount).map (fun j => .rdRaw j (s.rawAnswer j))

/-- `s` after `n` successful bus transactions with the events `es`: the history is longer, the lock is free, and the
oracle has moved on. Nothing else changes. -/
def State.afterBus (s : State) (n : Nat) (es : List BusEvent) : State :=
  { s with busLog := s.busLog ++ es, busLock := .free, busAnswers := s.busAnswers.drop n,
           busDraws := s.busDraws + (n - s.busAnswers.length) }

/-- `s` after the transactions `es`, none of which failed; with no transaction, `s` itself. -/
def State.afterReads (s : State) (es : List BusEvent) : State := if es = [] then s else s.afterBus es.length es

/-- `v` is a finite binary64 nearest to `num / den` (R12): no finite binary64 lies nearer. Distances are compared in
units of 2^-1074 / den. -/
def isNearest (num : Int) (den : Nat) (v : Binary64) : Prop :=
  b64Finite v = true ∧
    ∀ w : Binary64, b64Finite w = true →
      (b64Value v * den - num * b64Unit).natAbs ≤ (b64Value w * den - num * b64Unit).natAbs

/-- `v` is `rne64(num / den)` (R12): nearest, and where another finite binary64 is equally near, the one with an even
significand. -/
def isRne64 (num : Int) (den : Nat) (v : Binary64) : Prop :=
  isNearest num den v ∧
    ∀ w : Binary64, isNearest num den w → w ≠ v → b64Significand v % 2 = 0

/-- `r` is the nearest integer to `x / unit`, ties to even (R12). -/
def isNearestInt (x : Int) (unit : Nat) (r : Int) : Prop :=
  2 * (x - r * unit).natAbs ≤ unit ∧ (2 * (x - r * unit).natAbs = unit → r % 2 = 0)

/-! ### Encodings and configuration records, as the rules word them -/

/-- The value of OP, bits 31:28 of a word (R70). -/
def wordOp (w : CmdWord) : Nat := w.toNat / 2 ^ 28

/-- The value of the operand area, bits 27:0 (R70). -/
def wordArea (w : CmdWord) : Nat := w.toNat % 2 ^ 28

/-- The command words R78 lists as `illegal`: a bad OP, or a non-zero bit in a must-be-0 field (R72 to R75). -/
abbrev illegalWord (w : CmdWord) : Prop :=
  wordOp w = 0x0 ∨ 0xB ≤ wordOp w ∨ (wordOp w ∈ [0x1, 0x2, 0x4, 0x5, 0x8, 0x9] ∧ wordArea w ≠ 0) ∨
    (wordOp w ∈ [0x3, 0x7] ∧ wordArea w / 2 ≠ 0) ∨ (wordOp w = 0x6 ∧ wordArea w / 2 ^ 8 % 2 ^ 8 ≠ 0) ∨
    (wordOp w = 0xA ∧ wordArea w / 2 ^ 8 ≠ 0)

/-- A signed 32-bit integer (R7). -/
abbrev fitsS32 (n : Int) : Prop := -2 ^ 31 ≤ n ∧ n ≤ 2 ^ 31 - 1

/-- The list of check 1 of R204, CONFIG_PARAM. -/
abbrev paramRanges (c : Config) : Prop :=
  (1 ≤ c.buttonCount ∧ c.buttonCount ≤ 64) ∧ 1 ≤ c.digSources.length ∧
    (∀ d ∈ c.digSources, 1 ≤ d.len ∧ d.len ≤ 255) ∧ c.axes.length ≤ 255 ∧
    (∀ a ∈ c.axes, fitsS32 a.minInput ∧ fitsS32 a.maxInput) ∧ fitsS32 c.rawLo ∧ fitsS32 c.rawHi ∧
    c.rawLo ≤ c.rawHi ∧ (∀ e ∈ c.glyph, e.2.getLsbD 7 = false) ∧
    c.cmdOscOn ≠ [] ∧ c.cmdDisplayOn ≠ [] ∧ ∀ m : Fin 4, c.cmdBlink[m] ≠ []

/-- The shape R57 gives a bus event: a block has DIG_LEN[s] bytes, a raw sample lies in RAW_LO..RAW_HI, and the source
exists. -/
def eventShape (c : Config) : BusEvent → Prop
  | .rdBlk k bytes => k < c.numDig ∧ bytes.length = c.digLen k
  | .rdBlkErr k => k < c.numDig
  | .rdRaw j n => j < c.axisCount ∧ c.rawLo ≤ n ∧ n ≤ c.rawHi
  | .rdRawErr j => j < c.axisCount
  | .wr bytes => bytes ≠ []
  | .wrErr bytes => bytes ≠ []

/-- A bus event that records a failed transaction (R33). -/
def BusEvent.failed : BusEvent → Bool
  | .rdBlk _ _ => false
  | .rdBlkErr _ => true
  | .rdRaw _ _ => false
  | .rdRawErr _ => true
  | .wr _ => false
  | .wrErr _ => true

/-- Four cells holding 0x00 (R182). -/
def blankCells : Vector (Option Byte) 4 := #v[some 0x00#8, some 0x00#8, some 0x00#8, some 0x00#8]

/-! ### The two paths (R235) -/

/-- `s` with the display registers CELL and BLINK_MODE replaced (R29, R34). -/
def State.withDisplay (s : State) (cells : Vector (Option Byte) 4) (blinkMode : Option (BitVec 2)) : State :=
  { s with cells := cells, blinkMode := blinkMode }

/-- `s` with the report path's registers BTN_STATE, AXIS_STATE, REPORT, SHADOW, SEND and SEND_VALID replaced (R25, R30 to
R32). -/
def State.withReportPath (s : State) (sample : Option Sample) (report shadow : Option (List Byte)) (send sendValid : Bool) :
    State :=
  { s with sample := sample, report := report, shadow := shadow, send := send, sendValid := sendValid }

/-- An outcome with its next state, if it has one, changed by `f`. -/
def mapNext (f : State → State) : Host.Outcome State Fault Refusal → Host.Outcome State Fault Refusal
  | .next s => .next (f s)
  | .fault r => .fault r
  | .refused r => .refused r

/-- The commands of the report path (40_aggregator.md, 41_report_encoder.md); the others are the display path's. -/
def reportCommand : Instr → Bool
  | .sample => true
  | .encode => true
  | .shouldSend _ => true
  | .commitSent => true
  | .render _ => false
  | .putRaw _ _ _ => false
  | .clear _ => false
  | .showFb => false
  | .initDisplay => false
  | .setBlink _ => false

/-! ### The HOST and its duties (R130, R213, R237, R238) -/

/-- What the HOST does at the block's boundary, as far as its commit duty goes. -/
inductive HostAct where
  /-- Issue a command and wait for its end. -/
  | command (i : Instr)
  /-- Read REPORT and transmit it; the HID transport delivers it. -/
  | deliver
  /-- Read REPORT and try to transmit it; the transport fails, the retry included. -/
  | sendFails
  deriving DecidableEq, Repr

/-- The block, and the report the USB host last received. -/
structure HostWorld where
  block : State
  received : Option (List Byte)
  deriving DecidableEq, Repr

/-- One act of the HOST. `none`: the command never ends (R56), or there is no report to transmit (R20). -/
def HostWorld.act (w : HostWorld) : HostAct → Option HostWorld
  | .command i =>
    match step (w.block.withNextCommand (encodeCommand i)) with
    | .next s => some { w with block := s }
    | _ => none
  | .deliver =>
    match w.block.report with
    | some r => some { w with received := some r }
    | none => none
  | .sendFails => some w

/-- Acts in a row. -/
def HostWorld.acts (w : HostWorld) : List HostAct → Option HostWorld
  | [] => some w
  | a :: as =>
    match w.act a with
    | some w' => w'.acts as
    | none => none

/-- The commit duty as an automaton; `owed` is whether a delivered report still waits for its COMMIT_SENT, and `none`
is a broken duty: a commit that nothing is owed for (R130, R238), a second delivery before the first is committed
(R213), or an ENCODE between transmission and commit (R237). Log entry 15. -/
def commitDuty (owed : Bool) : HostAct → Option Bool
  | .command .commitSent => if owed then some false else none
  | .command .encode => if owed then none else some false
  | .command _ => some owed
  | .deliver => if owed then none else some true
  | .sendFails => some owed

/-- The duty over acts in a row: `some owed` if it is kept throughout. -/
def commitDutyKept (owed : Bool) : List HostAct → Option Bool
  | [] => some owed
  | a :: as =>
    match commitDuty owed a with
    | some owed' => commitDutyKept owed' as
    | none => none

/-- What the commit duty keeps, while the block is usable: with a commit owed the USB host's last report is REPORT, with
none owed it is SHADOW (R130, log entry 15). -/
def HostWorld.dutyInv (w : HostWorld) (owed : Bool) : Prop :=
  w.block.usable → if owed then w.received = w.block.report else w.received = w.block.shadow

end Sys2Proof.Machine
end

