-- ==== Sys2Proof/Certificates/Slice0/Obligations.lean ====
section
/-! DEFINITION. What is claimed of the model, one `def Obligations.<Name> : Prop` each. `OBLIGATIONS.json` says of each
whether it states a rule of the spec whole or is derived.

`exec` is only ever run on a usable block (60_exceptions.md R203, R205), so the statements about an instruction assume
`usable`; the statements about `step` do not. -/

open Sys2Proof Sys2Proof.Machine

/-! ### Encoding (30_encoding.md) -/

/-- Decode and encode agree, for every instruction and every value of every operand (R71 to R77). -/
def Obligations.DecodeOfEncodeIsTheInstruction : Prop :=
  ∀ i : Instr, decode (encodeCommand i) = some i

/-- A well-formed command that decodes is the encoding of what it decodes to, so two different legal words decode to
different commands (R82). -/
def Obligations.EncodeOfDecodeIsTheCommand : Prop :=
  ∀ (c : Command) (i : Instr), c.wellFormed = true → decode c = some i → encodeCommand i = c

/-- The opcode table drives the decoder (R82): a word is illegal iff no row matches it, and the row that matches a
legal word is the only one and bears the mnemonic of the instruction. -/
def Obligations.OpcodeTableDrivesDecoder : Prop :=
  ∀ c : Command,
    (decode c = none ↔ ∀ r ∈ opcodeTable, r.matchesWord c.word = false) ∧
      ∀ i, decode c = some i →
        ∃ r ∈ opcodeTable, r.mnemonic = i.mnemonic ∧ ∀ r' ∈ opcodeTable, (r'.matchesWord c.word = true ↔ r' = r)

/-- Words of R80 and of the decode vectors V-D6 to V-D11, each with the instruction it stands for. -/
def Obligations.SpecWordsDecode : Prop :=
  decodeTableWord 32 0x10000000 = some .sample ∧ decodeTableWord 32 0x20000000 = some .encode ∧
    decodeTableWord 32 0x30000001 = some (.shouldSend true) ∧ decodeTableWord 32 0x40000000 = some .commitSent ∧
    decodeTableWord 32 0x50000000 = some (.render []) ∧
    decodeTableWord 32 0x61020080 = some (.putRaw 1#4 2#8 0x80#8) ∧ decodeTableWord 32 0x70000000 = some (.clear false) ∧
    decodeTableWord 32 0x80000000 = some .showFb ∧ decodeTableWord 32 0x90000000 = some .initDisplay ∧
    decodeTableWord 32 0xA0000004 = some (.setBlink 4#8) ∧
    decodeTableWord 32 0x6F0F0000 = some (.putRaw 15#4 15#8 0#8) ∧ decodeTableWord 32 0x61000100 = none

/-- R78: on a usable block an illegal word raises ILLEGAL_COMMAND and changes nothing else, and no other word is
illegal. -/
def Obligations.IllegalWordFaults : Prop :=
  ∀ (s : State) (c : Command) (rest : List Command), s.usable → s.commands = c :: rest →
    (illegalWord c.word → decode c = none ∧
      step s = .next { s with commands := rest, result := .faulted, faultCause := .illegalCommand }) ∧
    (¬illegalWord c.word → ∃ i, decode c = some i)

/-! ### The step (00_scope.md R6, 60_exceptions.md R203, R205) -/

/-- A step runs the decoded command on the state that no longer holds it; with no command waiting the block is idle
and holds all state. -/
def Obligations.StepRunsTheDecodedCommand : Prop :=
  (∀ (s : State) (c : Command) (rest : List Command) (i : Instr),
    s.usable → s.commands = c :: rest → decode c = some i → step s = exec i { s with commands := rest }) ∧
    ∀ s : State, s.commands = [] → step s = .next s

/-- R203: while FAULTED a command is refused whatever its word, with no effect and no bus transaction; STATUS and every
host read are as before. That the refused command is taken off the port is the model's clause, not R203's (log entry 5).
No run leaves FAULTED or changes FAULT_CAUSE; reset under an admitted record does leave it. -/
def Obligations.FaultedBlockRefusesCommands : Prop :=
  (∀ (s : State) (c : Command) (rest : List Command), s.result = .faulted → s.commands = c :: rest →
    step s = .next { s with commands := rest } ∧ ({ s with commands := rest } : State).statusWord = s.statusWord ∧
      ∀ a, hostRead { s with commands := rest } a = hostRead s a) ∧
    (∀ (n : Nat) (s t : State), s.result = .faulted → Sys2Proof.core.run n s = .next t →
      t.result = .faulted ∧ t.faultCause = s.faultCause ∧ t.busLog = s.busLog) ∧
    ∀ cfg : Config, cfg.check = .none → (State.resetWith cfg).usable

/-- Every command ends (R200) if the transfers it issues do (R242): no command is refused, and none stops but for an
answer of the bus, among those it uses, that never comes (log entry 3). -/
def Obligations.OnlyAHangStopsACommand : Prop :=
  ∀ (i : Instr) (s : State),
    ((∀ k < maxTransactions s.cfg i, s.answerAt k ≠ .never) → ∃ t, exec i s = .next t) ∧
      (∀ r, exec i s ≠ .refused r) ∧
      ∀ f, exec i s = .fault f → f = .busHang ∧ ∃ k < maxTransactions s.cfg i, s.answerAt k = .never

/-- Whichever transfer of a command is the first that never completes, the command is left unfinished, and it ends in no
transient error (R56; 93_implementation_defined.md I4; the model's form of a hang: log entry 3): each of SAMPLE's NUM_DIG +
AXIS_COUNT, each of INITIALIZE's three, and the one of CLEAR with a push, of a legal SET_BLINK, and of SHOW. -/
def Obligations.HangLeavesTheCommandUnfinished : Prop :=
  ∀ s : State, s.usable →
    (∀ k < s.cfg.numDig + s.cfg.axisCount, s.busOk k → s.answerAt k = .never → exec .sample s = .fault .busHang) ∧
      (∀ k < 3, s.busOk k → s.answerAt k = .never → exec .initDisplay s = .fault .busHang) ∧
      (s.answerAt 0 = .never →
        (∀ force, s.cfg.autoWrite = true ∨ force = true → exec (.clear force) s = .fault .busHang) ∧
          (∀ m : Byte, m.toNat ≤ 3 → exec (.setBlink m) s = .fault .busHang) ∧
          ((∀ i : Fin 4, s.cells[i] ≠ none) → exec .showFb s = .fault .busHang))

/-! ### SAMPLE (40_aggregator.md) -/

/-- R101 to R103: when its NUM_DIG + AXIS_COUNT transactions succeed, SAMPLE issues exactly these, the digital ones
first, each in declaration order; latches the first BUTTON_COUNT bits of the stream and every axis normalised with its
own pair; and changes nothing else. -/
def Obligations.SampleLatchesTheTruncatedStream : Prop :=
  ∀ s : State, s.usable → s.cfg.check = .none → s.busOk (s.cfg.numDig + s.cfg.axisCount) →
    exec .sample s =
      .next { s.afterBus (s.cfg.numDig + s.cfg.axisCount) s.sampleEvents with
        sample := some
          { btn := (List.range s.cfg.buttonCount).map (streamBit s.sampleBytes)
            axis := List.zipWith norm s.cfg.axes ((List.range s.cfg.axisCount).map s.rawAnswer) }
        result := .ok
        transientCause := .none }

/-- R107: the first failing read ends SAMPLE with its transient error; no later transaction is issued, the lock is
free, and the latch keeps its contents. -/
def Obligations.SampleStopsAtTheFirstFailure : Prop :=
  ∀ s : State, s.usable → s.cfg.check = .none →
    (∀ k < s.cfg.numDig, s.busOk k → s.answerAt k = .err →
      exec .sample s =
        .next { s.afterBus (k + 1) (s.sampleEvents.take k ++ [.rdBlkErr k]) with
          result := .transient, transientCause := .digReadError }) ∧
    ∀ j < s.cfg.axisCount, s.busOk (s.cfg.numDig + j) → s.answerAt (s.cfg.numDig + j) = .err →
      exec .sample s =
        .next { s.afterBus (s.cfg.numDig + j + 1) (s.sampleEvents.take (s.cfg.numDig + j) ++ [.rdRawErr j]) with
          result := .transient, transientCause := .adcReadError }

/-- R104: the normalised value is the exact quotient rounded once to the nearest binary64, ties to even; it is finite,
and nothing is clamped (R105). -/
def Obligations.NormRoundsTheExactQuotientOnce : Prop :=
  ∀ (a : AxisChannel) (n : Int), fitsS32 n → fitsS32 a.minInput → fitsS32 a.maxInput → a.minInput < a.maxInput →
    b64Finite (norm a n) = true ∧ isRne64 (n - a.minInput) (a.maxInput - a.minInput).toNat (norm a n)

/-- R239: a SAMPLE that ends with a transient error leaves the older sample, which the next ENCODE packs. -/
def Obligations.EncodeAfterFailedSampleUsesTheOlderSample : Prop :=
  ∀ s t u : State, exec .encode s = .next u → u.usable → exec .sample s = .next t → t.result = .transient →
    exec .encode t = .next { t with report := u.report, result := .ok, transientCause := .none }

/-! ### ENCODE, SHOULD_SEND, COMMIT_SENT (41_report_encoder.md) -/

/-- R121 and R124: ENCODE writes exactly REPORT_BYTE_COUNT bytes: button 8k + b in bit b of byte k, unused bits 0, then
one byte per axis; it changes nothing else. -/
def Obligations.EncodePacksButtonsThenAxes : Prop :=
  ∀ (s : State) (x : Sample), s.usable → s.sample = some x → x.btn.length = s.cfg.buttonCount →
    x.axis.length = s.cfg.axisCount →
    ∃ r : List Byte,
      exec .encode s = .next { s with report := some r, result := .ok, transientCause := .none } ∧
        r.length = s.cfg.reportByteCount ∧
        (∀ k < s.cfg.buttonByteCount, ∀ b < 8,
          (r.getD k 0#8).getLsbD b = if 8 * k + b < s.cfg.buttonCount then x.btn.getD (8 * k + b) false else false) ∧
        ∀ j < s.cfg.axisCount, r[s.cfg.buttonByteCount + j]? = x.axis[j]?.map axisByte

/-- R125: REPORT is a function of the latched sample and the sizes alone. -/
def Obligations.EncodeDependsOnTheSampleAlone : Prop :=
  ∀ (s t s' t' : State) (x : Sample), s.sample = some x → t.sample = some x →
    s.cfg.buttonCount = t.cfg.buttonCount → exec .encode s = .next s' → exec .encode t = .next t' →
    s'.report = t'.report ∧ s'.report ≠ none

/-- R122: the product 255 * v is rounded to the nearest binary64, ties to even; that is rounded to the nearest
integer r, ties to even; the byte is r - 128 modulo 256. For every v of the size SAMPLE can produce. -/
def Obligations.AxisByteRoundsTwiceAndWraps : Prop :=
  ∀ v : Binary64, b64Finite v = true → (b64Value v).natAbs ≤ 2 ^ 33 * b64Unit →
    ∃ (p : Binary64) (r : Int), isRne64 (255 * b64Value v) b64Unit p ∧ isNearestInt (b64Value p) b64Unit r ∧
      (axisByte v).toNat = (r - 128) % 256

/-- R133: in calibration nothing wraps, and the two ends of the range give 0x80 and 0x7F. -/
def Obligations.AxisByteInCalibrationNeverWraps : Prop :=
  (∀ v : Binary64, b64Finite v = true → 0 ≤ b64Value v → b64Value v ≤ b64Unit →
    ∃ r : Int, isNearestInt (b64Value (axisProduct v)) b64Unit r ∧ 0 ≤ r ∧ r ≤ 255 ∧ s8 (axisByte v) = r - 128) ∧
    axisByte 0#64 = 0x80#8 ∧ axisByte 0x3FF0000000000000#64 = 0x7F#8

/-- R126 to R128: SHOULD_SEND answers 1 exactly when forced, when nothing is committed, or when REPORT and the
committed report differ; it changes SEND, SEND_VALID and the outcome only. -/
def Obligations.ShouldSendComparesWithTheCommitted : Prop :=
  ∀ (s : State) (r : List Byte) (force : Bool), s.usable → s.report = some r → r.length = s.cfg.reportByteCount →
    (∀ sh, s.shadow = some sh → sh.length = s.cfg.reportByteCount) →
    exec (.shouldSend force) s =
      .next { s with send := decide (force = true ∨ s.shadow ≠ some r), sendValid := true, result := .ok,
                     transientCause := .none }

/-- R129, and R64's idempotency: COMMIT_SENT copies all of REPORT in one step, and a second one changes nothing. -/
def Obligations.CommitCopiesTheReport : Prop :=
  ∀ (s : State) (r : List Byte), s.usable → s.report = some r →
    exec .commitSent s = .next { s with shadow := some r, result := .ok, transientCause := .none } ∧
      exec .commitSent { s with shadow := some r, result := .ok, transientCause := .none } =
        .next { s with shadow := some r, result := .ok, transientCause := .none }

/-- 95_test_vectors.md L1-S1: right after a commit an equal report is suppressed, and a report that differs in any byte
is sent. -/
def Obligations.CommittedReportIsSuppressed : Prop :=
  ∀ (s s1 : State) (r : List Byte), s.report = some r → r.length = s.cfg.reportByteCount →
    exec .commitSent s = .next s1 →
    (∃ s2, exec (.shouldSend false) s1 = .next s2 ∧ s2.send = false) ∧
      ∀ r' : List Byte, r'.length = s.cfg.reportByteCount → r' ≠ r →
        ∃ s3, exec (.shouldSend false) { s1 with report := some r' } = .next s3 ∧ s3.send = true

/-- R20: a command that reads unwritten state raises UNINIT_READ and changes nothing else. -/
def Obligations.UnwrittenReadFaults : Prop :=
  ∀ s : State, s.usable →
    (s.sample = none → exec .encode s = .next { s with result := .faulted, faultCause := .uninitRead }) ∧
      (s.report = none → (∀ force, exec (.shouldSend force) s =
          .next { s with result := .faulted, faultCause := .uninitRead }) ∧
        exec .commitSent s = .next { s with result := .faulted, faultCause := .uninitRead }) ∧
      ((∃ i : Fin 4, s.cells[i] = none) →
        exec .showFb s = .next { s with result := .faulted, faultCause := .uninitRead })

/-! ### RENDER and PUT_RAW (42_glyph_render.md) -/

/-- R160, R162, R163: RENDER writes min(4, vis(text)) cells from cell 0 on, with the bytes the two-state machine emits;
the cells after them keep their contents, unwritten included; nothing else changes. -/
def Obligations.RenderIsTheTwoStateMachine : Prop :=
  ∀ (s : State) (text : List Byte), s.usable →
    ∃ cells' : Vector (Option Byte) 4,
      exec (.render text) s = .next { s with cells := cells', result := .ok, transientCause := .none } ∧
        (renderMachine s.cfg .normal 4 text).length = min 4 (visibleCells text) ∧
        ∀ (j : Nat) (h : j < 4),
          cells'[j] = if j < min 4 (visibleCells text) then (renderMachine s.cfg .normal 4 text)[j]? else s.cells[j]

/-- R159: what stands after the fourth visible cell is not read. -/
def Obligations.RenderIgnoresWhatItDoesNotScan : Prop :=
  ∀ (s : State) (text extra : List Byte), 4 < visibleCells text →
    exec (.render (text ++ extra)) s = exec (.render text) s

/-- R151: a lookup miss gives the blank glyph and is no error. -/
def Obligations.LookupMissIsBlank : Prop :=
  ∀ (s : State) (c : Byte), s.usable → c ≠ dotChar → (∀ e ∈ s.cfg.glyph, e.1 ≠ c) →
    exec (.render [c]) s =
      .next { s with cells := s.cells.set 0 (some 0x00#8), result := .ok, transientCause := .none }

/-- R236: after a CLEAR that does not push, the cells a short RENDER does not reach are blank. -/
def Obligations.ShortRenderAfterClearIsBlankPadded : Prop :=
  ∀ (s : State) (text : List Byte), s.usable → s.cfg.autoWrite = false →
    ∃ s1 s2, exec (.clear false) s = .next s1 ∧ exec (.render text) s1 = .next s2 ∧ s2.busLog = s.busLog ∧
      ∀ (j : Nat) (h : j < 4), visibleCells text ≤ j → s2.cells[j] = some 0x00#8

/-- R154: PUT_RAW writes one cell and nothing else; a bad index is reported before a bad length, and either changes no
cell. -/
def Obligations.PutRawWritesOneCell : Prop :=
  ∀ (s : State) (len : BitVec 4) (idx val : Byte), s.usable →
    decode { word := 0x61000000#32 ||| (idx.setWidth 32 <<< 16) ||| val.setWidth 32 } = some (.putRaw 1#4 idx val) ∧
      exec (.putRaw len idx val) s =
        .next (if h : idx.toNat < 4 then
            if len = 1#4 then
              { s with cells := s.cells.set idx.toNat (some val) h, result := .ok, transientCause := .none }
            else { s with result := .faulted, faultCause := .putRawLength }
          else { s with result := .faulted, faultCause := .putRawRange })

/-! ### SHOW, CLEAR, INITIALIZE, SET_BLINK (43_display_transport.md) -/

/-- R180 and R181: SHOW writes [FB_CMD, CELL[0..3]] in one transaction and changes no register but STATUS and BUS_LOG;
with a cell unwritten it faults, and a failed write is a transient error. -/
def Obligations.ShowPushesTheFramebuffer : Prop :=
  decode { word := 0x80000000#32 } = some .showFb ∧
  ∀ s : State, s.usable →
    ((∃ i : Fin 4, s.cells[i] = none) →
      exec .showFb s = .next { s with result := .faulted, faultCause := .uninitRead }) ∧
    ∀ a b c d : Byte, s.cells = #v[some a, some b, some c, some d] →
      (∀ bytes n, s.answerAt 0 = .ok bytes n →
        exec .showFb s =
          .next { s.afterBus 1 [.wr [s.cfg.fbCmd, a, b, c, d]] with result := .ok, transientCause := .none }) ∧
      (s.answerAt 0 = .err →
        exec .showFb s =
          .next { s.afterBus 1 [.wrErr [s.cfg.fbCmd, a, b, c, d]] with
            result := .transient, transientCause := .displayWriteError })

/-- R182: CLEAR blanks the cells; it pushes them under AUTO_WRITE or force, and only then; a failed push leaves them
cleared. -/
def Obligations.ClearBlanksAndMayPush : Prop :=
  decode { word := 0x70000000#32 } = some (.clear false) ∧ decode { word := 0x70000001#32 } = some (.clear true) ∧
  ∀ (s : State) (force : Bool), s.usable →
    (s.cfg.autoWrite = false → force = false →
      exec (.clear force) s = .next { s with cells := blankCells, result := .ok, transientCause := .none }) ∧
    (s.cfg.autoWrite = true ∨ force = true →
      (∀ bytes n, s.answerAt 0 = .ok bytes n →
        exec (.clear force) s =
          .next { s.afterBus 1 [.wr [s.cfg.fbCmd, 0, 0, 0, 0]] with
            cells := blankCells, result := .ok, transientCause := .none }) ∧
      (s.answerAt 0 = .err →
        exec (.clear force) s =
          .next { s.afterBus 1 [.wrErr [s.cfg.fbCmd, 0, 0, 0, 0]] with
            cells := blankCells, result := .transient, transientCause := .displayWriteError }))

/-- R183: INITIALIZE blanks the cells and issues its three writes in order whatever AUTO_WRITE is; the first failing
one ends it, the cells stay cleared, and BLINK_MODE is not touched. -/
def Obligations.InitializeIssuesThreeWrites : Prop :=
  decode { word := 0x90000000#32 } = some .initDisplay ∧
  ∀ s : State, s.usable →
    (s.busOk 3 →
      exec .initDisplay s =
        .next { s.afterBus 3 [.wr [s.cfg.fbCmd, 0, 0, 0, 0], .wr s.cfg.cmdOscOn, .wr s.cfg.cmdDisplayOn] with
          cells := blankCells, result := .ok, transientCause := .none }) ∧
    ∀ k < 3, s.busOk k → s.answerAt k = .err →
      exec .initDisplay s =
        .next { s.afterBus (k + 1)
            ((([[s.cfg.fbCmd, 0, 0, 0, 0], s.cfg.cmdOscOn, s.cfg.cmdDisplayOn].take k).map BusEvent.wr) ++
              [.wrErr ([[s.cfg.fbCmd, 0, 0, 0, 0], s.cfg.cmdOscOn, s.cfg.cmdDisplayOn].getD k [])]) with
          cells := blankCells, result := .transient, transientCause := .displayWriteError }

/-- R184: SET_BLINK latches the mode after its command is written; a failed write leaves the mode; M > 3 faults before
any transaction. -/
def Obligations.SetBlinkLatchesAfterTheWrite : Prop :=
  ∀ (s : State) (m : Byte), s.usable →
    decode { word := 0xA0000000#32 ||| m.setWidth 32 } = some (.setBlink m) ∧
    (3 < m.toNat → exec (.setBlink m) s = .next { s with result := .faulted, faultCause := .configBlink }) ∧
    ∀ h : m.toNat < 4,
      (∀ bytes n, s.answerAt 0 = .ok bytes n →
        exec (.setBlink m) s =
          .next { s.afterBus 1 [.wr (s.cfg.cmdBlink[m.toNat])] with
            blinkMode := some (BitVec.ofNat 2 m.toNat), result := .ok, transientCause := .none }) ∧
      (s.answerAt 0 = .err →
        exec (.setBlink m) s =
          .next { s.afterBus 1 [.wrErr (s.cfg.cmdBlink[m.toNat])] with
            result := .transient, transientCause := .displayWriteError })

/-! ### Reset, the read port and the status words (10_state.md, 70_reset_and_hazards.md) -/

/-- R204: the configuration checks in their order, for a record whose device identifiers are distinct (whether reset
compares these is log entry 8). -/
def Obligations.ResetChecksTheConfigurationInOrder : Prop :=
  ∀ c : Config, c.deviceIds.Nodup →
    (¬paramRanges c →
      (State.resetWith c).result = .faulted ∧ (State.resetWith c).faultCause = .configParam) ∧
    (paramRanges c → c.digCapacity < c.buttonCount →
      (State.resetWith c).result = .faulted ∧ (State.resetWith c).faultCause = .configCapacity) ∧
    (paramRanges c → c.buttonCount ≤ c.digCapacity → (∃ a ∈ c.axes, a.maxInput ≤ a.minInput) →
      (State.resetWith c).result = .faulted ∧ (State.resetWith c).faultCause = .configCalibration) ∧
    (paramRanges c → c.buttonCount ≤ c.digCapacity → (∀ a ∈ c.axes, a.minInput < a.maxInput) →
      (State.resetWith c).result = .ok ∧ (State.resetWith c).faultCause = .none)

/-- R42 as the HOST sees it: after reset STATUS holds the outcome of the check and nothing else, and only STATUS,
CONFIG_INFO, FB[0] and GLYPH have a value, under a rejected record too (log entry 12); the bus is idle. -/
def Obligations.ResetLeavesEveryRegisterUnwritten : Prop :=
  ∀ c : Config,
    (State.resetWith c).statusWord.toNat = (if c.check = .none then 0 else 16 * c.check.code.toNat + 2) ∧
      (∀ a : BitVec 16, hostRead (State.resetWith c) a ≠ none ↔
        a = 0x0000#16 ∨ a = 0x0001#16 ∨ a = 0x5000#16 ∨ (0x6000 ≤ a.toNat ∧ a.toNat < 0x6100)) ∧
      hostRead (State.resetWith c) 0x5000#16 = some (c.fbCmd.setWidth 64) ∧
      (State.resetWith c).busLock = .free ∧ (State.resetWith c).busLog = []

/-- R40: the host read map, row by row, under an admitted record (log entry 12), FAULTED blocks included. -/
def Obligations.HostReadMapIsTheTable : Prop :=
  ∀ s : State, s.Inv → s.cfg.check = .none →
    hostRead s 0x0000#16 = some (s.statusWord.setWidth 64) ∧
    hostRead s 0x0001#16 = some ((configInfoWord s.cfg).setWidth 64) ∧
    hostRead s 0x0002#16 = s.blinkMode.map (fun m => m.setWidth 64) ∧
    (∀ i < s.cfg.buttonCount, hostRead s (BitVec.ofNat 16 (0x1000 + i)) =
      s.sample.map (fun x => (BitVec.ofBool (x.btn.getD i false)).setWidth 64)) ∧
    (∀ j < s.cfg.axisCount, hostRead s (BitVec.ofNat 16 (0x2000 + j)) = s.sample.map (fun x => x.axis.getD j 0#64)) ∧
    (∀ k < s.cfg.reportByteCount, hostRead s (BitVec.ofNat 16 (0x3000 + k)) =
      s.report.map (fun r => (r.getD k 0#8).setWidth 64)) ∧
    (∀ k < s.cfg.reportByteCount, hostRead s (BitVec.ofNat 16 (0x4000 + k)) =
      s.shadow.map (fun r => (r.getD k 0#8).setWidth 64)) ∧
    hostRead s 0x5000#16 = some (s.cfg.fbCmd.setWidth 64) ∧
    (∀ i : Fin 4, hostRead s (BitVec.ofNat 16 (0x5001 + i.val)) = s.cells[i].map (fun b => b.setWidth 64)) ∧
    (∀ c : Byte, hostRead s (BitVec.ofNat 16 (0x6000 + c.toNat)) = some ((s.cfg.glyphOf c).setWidth 64)) ∧
    ∀ a : BitVec 16,
      2 < a.toNat → ¬(0x1000 ≤ a.toNat ∧ a.toNat < 0x1000 + s.cfg.buttonCount) →
      ¬(0x2000 ≤ a.toNat ∧ a.toNat < 0x2000 + s.cfg.axisCount) →
      ¬(0x3000 ≤ a.toNat ∧ a.toNat < 0x3000 + s.cfg.reportByteCount) →
      ¬(0x4000 ≤ a.toNat ∧ a.toNat < 0x4000 + s.cfg.reportByteCount) →
      ¬(0x5000 ≤ a.toNat ∧ a.toNat < 0x5005) → ¬(0x6000 ≤ a.toNat ∧ a.toNat < 0x6100) → hostRead s a = none

/-- R21: STATUS is read at 0x0000; its fields, the reserved bits included, and their values at reset. -/
def Obligations.StatusFieldsStandWhereTheTableSays : Prop :=
  (∀ c : Config, (State.resetWith c).statusWord.toNat = if c.check = .none then 0 else 16 * c.check.code.toNat + 2) ∧
  ∀ s : State, hostRead s 0x0000#16 = some (s.statusWord.setWidth 64) ∧
    s.statusWord.extractLsb' 0 2 = s.result.code ∧ s.statusWord.extractLsb' 2 2 = 0#2 ∧
      s.statusWord.extractLsb' 4 4 = s.faultCause.code ∧ s.statusWord.extractLsb' 8 4 = s.transientCause.code ∧
      s.statusWord.getLsbD 12 = s.send ∧ s.statusWord.getLsbD 13 = s.sendValid ∧
      s.statusWord.getLsbD 14 = s.sample.isSome ∧ s.statusWord.getLsbD 15 = s.report.isSome ∧
      s.statusWord.getLsbD 16 = s.shadow.isSome ∧
      (∀ i : Fin 4, s.statusWord.getLsbD (17 + i.val) = s.cells[i].isSome) ∧
      s.statusWord.getLsbD 21 = s.blinkMode.isSome ∧ s.statusWord.extractLsb' 22 10 = 0#10

/-- R28: CONFIG_INFO is read at 0x0001, no run changes it, and its fields hold the counts of an admitted record
whole. -/
def Obligations.ConfigInfoHoldsTheCounts : Prop :=
  (∀ s : State, hostRead s 0x0001#16 = some ((configInfoWord s.cfg).setWidth 64)) ∧
  (∀ (n : Nat) (s t : State), Sys2Proof.core.run n s = .next t → hostRead t 0x0001#16 = hostRead s 0x0001#16) ∧
  ∀ c : Config, c.check = .none →
    (configInfoWord c).toNat % 128 = c.buttonCount ∧ (configInfoWord c).getLsbD 7 = c.autoWrite ∧
      (configInfoWord c).toNat / 256 % 256 = c.axisCount ∧ (configInfoWord c).toNat / 65536 = c.reportByteCount

/-! ### Invariants and whole-machine rules -/

/-- The invariant holds after reset, under every configuration record (log entry 1 names the reference one). -/
def Obligations.ResetStateMeetsTheInvariant : Prop :=
  (∀ c : Config, (State.resetWith c).Inv) ∧ State.reset.Inv

/-- Every step keeps the invariant. -/
def Obligations.StepKeepsTheInvariant : Prop :=
  ∀ s t : State, s.Inv → step s = .next t → t.Inv

/-- R152, and R7's "Nothing changes it afterwards": no run changes the configuration record, GLYPH included. -/
def Obligations.NoRunChangesTheConfiguration : Prop :=
  ∀ (n : Nat) (s t : State), Sys2Proof.core.run n s = .next t →
    t.cfg = s.cfg ∧ (∀ c, t.cfg.glyphOf c = s.cfg.glyphOf c) ∧ configInfoWord t.cfg = configInfoWord s.cfg

/-- R33, R54, R57, R58: a command appends its transactions to BUS_LOG after those of every earlier command, one event
for each answer of the bus it uses, each of the shape R57 gives; it leaves the lock free. -/
def Obligations.BusHistoryOnlyGrows : Prop :=
  ∀ (i : Instr) (s t : State), s.busLock = .free → s.cfg.check = .none → exec i s = .next t →
    t.busLock = .free ∧
      ∃ es : List BusEvent, t.busLog = s.busLog ++ es ∧ t.busAnswers = s.busAnswers.drop es.length ∧
        t.busDraws = s.busDraws + (es.length - s.busAnswers.length) ∧ ∀ e ∈ es, eventShape s.cfg e

/-- R57: what a transaction can return is exactly a block of DIG_LEN[k] bytes, and exactly a raw sample in
RAW_LO..RAW_HI (the model's form of the oracle: log entry 2). -/
def Obligations.BusMayAnswerAnythingOfItsShape : Prop :=
  ∀ s : State, s.cfg.rawLo ≤ s.cfg.rawHi →
    (∀ (k : Nat) (b : List Byte),
      b.length = s.cfg.digLen k ↔
        ∃ (a : BusAnswer) (s1 : State), ({ s with busAnswers := [a] } : State).busReadBlock k = .ok b s1) ∧
    ∀ (j : Nat) (n : Int),
      (s.cfg.rawLo ≤ n ∧ n ≤ s.cfg.rawHi) ↔
        ∃ (a : BusAnswer) (s1 : State), ({ s with busAnswers := [a] } : State).busReadRaw j = .ok n s1

/-- R26 and R27: no run clears a valid bit. -/
def Obligations.NoRunClearsAValidBit : Prop :=
  ∀ (n : Nat) (s t : State), Sys2Proof.core.run n s = .next t →
    (s.sampleValid = true → t.sampleValid = true) ∧ (s.reportValid = true → t.reportValid = true) ∧
      (s.shadowValid = true → t.shadowValid = true) ∧ (s.sendValid = true → t.sendValid = true) ∧
      (∀ i : Fin 4, s.cellWritten i = true → t.cellWritten i = true) ∧ (s.blinkValid = true → t.blinkValid = true)

/-- R25, R29 to R32, R34, R153: each register file is written by its own commands only. Who reads it is
`Obligations.ReportAndDisplayPathsAreIndependent`. -/
def Obligations.EachRegisterHasItsOwnWriters : Prop :=
  ∀ (i : Instr) (s t : State), exec i s = .next t →
    (t.sample ≠ s.sample → i = .sample) ∧ (t.report ≠ s.report → i = .encode) ∧
      (t.shadow ≠ s.shadow → i = .commitSent) ∧
      (t.send ≠ s.send ∨ t.sendValid ≠ s.sendValid → ∃ f, i = .shouldSend f) ∧
      (t.cells ≠ s.cells → (∃ text, i = .render text) ∨ (∃ l x v, i = .putRaw l x v) ∨ (∃ f, i = .clear f) ∨
        i = .initDisplay) ∧
      (t.blinkMode ≠ s.blinkMode → ∃ m, i = .setBlink m) ∧ t.commands = s.commands

/-- R202: a command that faults has no effect but RESULT and FAULT_CAUSE, and its cause is one of the four that
commands raise once decoded (R201), never CONTRACT_LENGTH (R131). -/
def Obligations.FaultsArePrecise : Prop :=
  ∀ (i : Instr) (s t : State), exec i s = .next t → t.result = .faulted →
    t = { s with result := .faulted, faultCause := t.faultCause } ∧
      (t.faultCause = .configBlink ∨ t.faultCause = .putRawRange ∨ t.faultCause = .putRawLength ∨
        t.faultCause = .uninitRead)

/-- R208 and R209: a transient error comes from a failed transaction, which is the last event of BUS_LOG; what the
command wrote before it stays, and nothing else is written. -/
def Obligations.TransientErrorsKeepEarlierWrites : Prop :=
  ∀ (i : Instr) (s t : State), exec i s = .next t → t.result = .transient →
    (∃ es e, t.busLog = s.busLog ++ es ++ [e] ∧ e.failed = true ∧ ∀ e' ∈ es, e'.failed = false) ∧
      t.busLock = .free ∧ t.sample = s.sample ∧ t.report = s.report ∧ t.shadow = s.shadow ∧ t.send = s.send ∧
      t.sendValid = s.sendValid ∧ t.blinkMode = s.blinkMode ∧ t.faultCause = s.faultCause ∧
      (i = .sample ∨ i = .showFb ∨ (∃ m, i = .setBlink m) → t.cells = s.cells) ∧
      ((∃ f, i = .clear f) ∨ i = .initDisplay → t.cells = blankCells) ∧
      (t.transientCause = .digReadError ∨ t.transientCause = .adcReadError → i = .sample)

/-- R130: if the HOST keeps its commit duty and the block does not end FAULTED, then whenever nothing is owed SHADOW
is the report the USB host last received (the duty's form: log entry 15). -/
def Obligations.ShadowIsWhatTheUsbHostReceived : Prop :=
  ∀ (w w' : HostWorld) (acts : List HostAct), w.block.shadow = w.received → w.acts acts = some w' →
    commitDutyKept false acts = some false → w'.block.usable → w'.block.shadow = w'.received

/-- The step behind it: every act of the HOST that keeps the commit duty keeps `HostWorld.dutyInv` (R130, R237, R238; the
duty's form: log entry 15). -/
def Obligations.EveryDutifulActKeepsTheDutyInvariant : Prop :=
  ∀ (w w' : HostWorld) (owed owed' : Bool) (a : HostAct), w.dutyInv owed → w.act a = some w' →
    commitDuty owed a = some owed' → w'.dutyInv owed'

/-- R235: the two paths are independent. Whatever CELL and BLINK_MODE hold, a report command ends the same way with the
same report registers, STATUS outcome and bus events, and leaves them alone; and whatever the report path's registers
hold, so does a display command. -/
def Obligations.ReportAndDisplayPathsAreIndependent : Prop :=
  ∀ (i : Instr) (s : State),
    (reportCommand i = true → ∀ cells blinkMode,
      exec i (s.withDisplay cells blinkMode) = mapNext (fun t => t.withDisplay cells blinkMode) (exec i s)) ∧
    (reportCommand i = false → ∀ sample report shadow send sendValid,
      exec i (s.withReportPath sample report shadow send sendValid) =
        mapNext (fun t => t.withReportPath sample report shadow send sendValid) (exec i s))
end

