-- ==== Sys2Proof/Laws/State.lean ====
section
/-! SUPPORT. What each named update does to each field of the state: one lemma per field per update, true by rfl, so
that no later proof unfolds a record update. -/

namespace Sys2Proof.Machine

section Updates
variable (s : State)

@[simp] theorem complete_cfg : s.complete.cfg = s.cfg := rfl
@[simp] theorem complete_result : s.complete.result = .ok := rfl
@[simp] theorem complete_faultCause : s.complete.faultCause = s.faultCause := rfl
@[simp] theorem complete_transientCause : s.complete.transientCause = .none := rfl
@[simp] theorem complete_send : s.complete.send = s.send := rfl
@[simp] theorem complete_sendValid : s.complete.sendValid = s.sendValid := rfl
@[simp] theorem complete_sample : s.complete.sample = s.sample := rfl
@[simp] theorem complete_report : s.complete.report = s.report := rfl
@[simp] theorem complete_shadow : s.complete.shadow = s.shadow := rfl
@[simp] theorem complete_cells : s.complete.cells = s.cells := rfl
@[simp] theorem complete_blinkMode : s.complete.blinkMode = s.blinkMode := rfl
@[simp] theorem complete_busLog : s.complete.busLog = s.busLog := rfl
@[simp] theorem complete_busLock : s.complete.busLock = s.busLock := rfl
@[simp] theorem complete_commands : s.complete.commands = s.commands := rfl
@[simp] theorem complete_busAnswers : s.complete.busAnswers = s.busAnswers := rfl
@[simp] theorem complete_busDraws : s.complete.busDraws = s.busDraws := rfl

@[simp] theorem raiseFault_cfg (c : FaultCause) : (s.raiseFault c).cfg = s.cfg := rfl
@[simp] theorem raiseFault_result (c : FaultCause) : (s.raiseFault c).result = .faulted := rfl
@[simp] theorem raiseFault_faultCause (c : FaultCause) : (s.raiseFault c).faultCause = c := rfl
@[simp] theorem raiseFault_transientCause (c : FaultCause) : (s.raiseFault c).transientCause = s.transientCause := rfl
@[simp] theorem raiseFault_send (c : FaultCause) : (s.raiseFault c).send = s.send := rfl
@[simp] theorem raiseFault_sendValid (c : FaultCause) : (s.raiseFault c).sendValid = s.sendValid := rfl
@[simp] theorem raiseFault_sample (c : FaultCause) : (s.raiseFault c).sample = s.sample := rfl
@[simp] theorem raiseFault_report (c : FaultCause) : (s.raiseFault c).report = s.report := rfl
@[simp] theorem raiseFault_shadow (c : FaultCause) : (s.raiseFault c).shadow = s.shadow := rfl
@[simp] theorem raiseFault_cells (c : FaultCause) : (s.raiseFault c).cells = s.cells := rfl
@[simp] theorem raiseFault_blinkMode (c : FaultCause) : (s.raiseFault c).blinkMode = s.blinkMode := rfl
@[simp] theorem raiseFault_busLog (c : FaultCause) : (s.raiseFault c).busLog = s.busLog := rfl
@[simp] theorem raiseFault_busLock (c : FaultCause) : (s.raiseFault c).busLock = s.busLock := rfl
@[simp] theorem raiseFault_commands (c : FaultCause) : (s.raiseFault c).commands = s.commands := rfl
@[simp] theorem raiseFault_busAnswers (c : FaultCause) : (s.raiseFault c).busAnswers = s.busAnswers := rfl
@[simp] theorem raiseFault_busDraws (c : FaultCause) : (s.raiseFault c).busDraws = s.busDraws := rfl

@[simp] theorem raiseTransient_cfg (c : TransientCause) : (s.raiseTransient c).cfg = s.cfg := rfl
@[simp] theorem raiseTransient_result (c : TransientCause) : (s.raiseTransient c).result = .transient := rfl
@[simp] theorem raiseTransient_faultCause (c : TransientCause) : (s.raiseTransient c).faultCause = s.faultCause := rfl
@[simp] theorem raiseTransient_transientCause (c : TransientCause) : (s.raiseTransient c).transientCause = c := rfl
@[simp] theorem raiseTransient_send (c : TransientCause) : (s.raiseTransient c).send = s.send := rfl
@[simp] theorem raiseTransient_sendValid (c : TransientCause) : (s.raiseTransient c).sendValid = s.sendValid := rfl
@[simp] theorem raiseTransient_sample (c : TransientCause) : (s.raiseTransient c).sample = s.sample := rfl
@[simp] theorem raiseTransient_report (c : TransientCause) : (s.raiseTransient c).report = s.report := rfl
@[simp] theorem raiseTransient_shadow (c : TransientCause) : (s.raiseTransient c).shadow = s.shadow := rfl
@[simp] theorem raiseTransient_cells (c : TransientCause) : (s.raiseTransient c).cells = s.cells := rfl
@[simp] theorem raiseTransient_blinkMode (c : TransientCause) : (s.raiseTransient c).blinkMode = s.blinkMode := rfl
@[simp] theorem raiseTransient_busLog (c : TransientCause) : (s.raiseTransient c).busLog = s.busLog := rfl
@[simp] theorem raiseTransient_busLock (c : TransientCause) : (s.raiseTransient c).busLock = s.busLock := rfl
@[simp] theorem raiseTransient_commands (c : TransientCause) : (s.raiseTransient c).commands = s.commands := rfl
@[simp] theorem raiseTransient_busAnswers (c : TransientCause) : (s.raiseTransient c).busAnswers = s.busAnswers := rfl
@[simp] theorem raiseTransient_busDraws (c : TransientCause) : (s.raiseTransient c).busDraws = s.busDraws := rfl

@[simp] theorem cellWrite_cfg (i : Nat) (v : Byte) : (s.cellWrite i v).cfg = s.cfg := rfl
@[simp] theorem cellWrite_result (i : Nat) (v : Byte) : (s.cellWrite i v).result = s.result := rfl
@[simp] theorem cellWrite_faultCause (i : Nat) (v : Byte) : (s.cellWrite i v).faultCause = s.faultCause := rfl
@[simp] theorem cellWrite_transientCause (i : Nat) (v : Byte) : (s.cellWrite i v).transientCause = s.transientCause := rfl
@[simp] theorem cellWrite_send (i : Nat) (v : Byte) : (s.cellWrite i v).send = s.send := rfl
@[simp] theorem cellWrite_sendValid (i : Nat) (v : Byte) : (s.cellWrite i v).sendValid = s.sendValid := rfl
@[simp] theorem cellWrite_sample (i : Nat) (v : Byte) : (s.cellWrite i v).sample = s.sample := rfl
@[simp] theorem cellWrite_report (i : Nat) (v : Byte) : (s.cellWrite i v).report = s.report := rfl
@[simp] theorem cellWrite_shadow (i : Nat) (v : Byte) : (s.cellWrite i v).shadow = s.shadow := rfl
@[simp] theorem cellWrite_cells (i : Nat) (v : Byte) : (s.cellWrite i v).cells = s.cells.setIfInBounds i (some v) := rfl
@[simp] theorem cellWrite_blinkMode (i : Nat) (v : Byte) : (s.cellWrite i v).blinkMode = s.blinkMode := rfl
@[simp] theorem cellWrite_busLog (i : Nat) (v : Byte) : (s.cellWrite i v).busLog = s.busLog := rfl
@[simp] theorem cellWrite_busLock (i : Nat) (v : Byte) : (s.cellWrite i v).busLock = s.busLock := rfl
@[simp] theorem cellWrite_commands (i : Nat) (v : Byte) : (s.cellWrite i v).commands = s.commands := rfl
@[simp] theorem cellWrite_busAnswers (i : Nat) (v : Byte) : (s.cellWrite i v).busAnswers = s.busAnswers := rfl
@[simp] theorem cellWrite_busDraws (i : Nat) (v : Byte) : (s.cellWrite i v).busDraws = s.busDraws := rfl

@[simp] theorem latchSample_cfg (x : Sample) : (s.latchSample x).cfg = s.cfg := rfl
@[simp] theorem latchSample_result (x : Sample) : (s.latchSample x).result = s.result := rfl
@[simp] theorem latchSample_faultCause (x : Sample) : (s.latchSample x).faultCause = s.faultCause := rfl
@[simp] theorem latchSample_transientCause (x : Sample) : (s.latchSample x).transientCause = s.transientCause := rfl
@[simp] theorem latchSample_send (x : Sample) : (s.latchSample x).send = s.send := rfl
@[simp] theorem latchSample_sendValid (x : Sample) : (s.latchSample x).sendValid = s.sendValid := rfl
@[simp] theorem latchSample_sample (x : Sample) : (s.latchSample x).sample = some x := rfl
@[simp] theorem latchSample_report (x : Sample) : (s.latchSample x).report = s.report := rfl
@[simp] theorem latchSample_shadow (x : Sample) : (s.latchSample x).shadow = s.shadow := rfl
@[simp] theorem latchSample_cells (x : Sample) : (s.latchSample x).cells = s.cells := rfl
@[simp] theorem latchSample_blinkMode (x : Sample) : (s.latchSample x).blinkMode = s.blinkMode := rfl
@[simp] theorem latchSample_busLog (x : Sample) : (s.latchSample x).busLog = s.busLog := rfl
@[simp] theorem latchSample_busLock (x : Sample) : (s.latchSample x).busLock = s.busLock := rfl
@[simp] theorem latchSample_commands (x : Sample) : (s.latchSample x).commands = s.commands := rfl
@[simp] theorem latchSample_busAnswers (x : Sample) : (s.latchSample x).busAnswers = s.busAnswers := rfl
@[simp] theorem latchSample_busDraws (x : Sample) : (s.latchSample x).busDraws = s.busDraws := rfl

@[simp] theorem writeReport_cfg (b : List Byte) : (s.writeReport b).cfg = s.cfg := rfl
@[simp] theorem writeReport_result (b : List Byte) : (s.writeReport b).result = s.result := rfl
@[simp] theorem writeReport_faultCause (b : List Byte) : (s.writeReport b).faultCause = s.faultCause := rfl
@[simp] theorem writeReport_transientCause (b : List Byte) : (s.writeReport b).transientCause = s.transientCause := rfl
@[simp] theorem writeReport_send (b : List Byte) : (s.writeReport b).send = s.send := rfl
@[simp] theorem writeReport_sendValid (b : List Byte) : (s.writeReport b).sendValid = s.sendValid := rfl
@[simp] theorem writeReport_sample (b : List Byte) : (s.writeReport b).sample = s.sample := rfl
@[simp] theorem writeReport_report (b : List Byte) : (s.writeReport b).report = some b := rfl
@[simp] theorem writeReport_shadow (b : List Byte) : (s.writeReport b).shadow = s.shadow := rfl
@[simp] theorem writeReport_cells (b : List Byte) : (s.writeReport b).cells = s.cells := rfl
@[simp] theorem writeReport_blinkMode (b : List Byte) : (s.writeReport b).blinkMode = s.blinkMode := rfl
@[simp] theorem writeReport_busLog (b : List Byte) : (s.writeReport b).busLog = s.busLog := rfl
@[simp] theorem writeReport_busLock (b : List Byte) : (s.writeReport b).busLock = s.busLock := rfl
@[simp] theorem writeReport_commands (b : List Byte) : (s.writeReport b).commands = s.commands := rfl
@[simp] theorem writeReport_busAnswers (b : List Byte) : (s.writeReport b).busAnswers = s.busAnswers := rfl
@[simp] theorem writeReport_busDraws (b : List Byte) : (s.writeReport b).busDraws = s.busDraws := rfl

@[simp] theorem writeShadow_cfg (b : List Byte) : (s.writeShadow b).cfg = s.cfg := rfl
@[simp] theorem writeShadow_result (b : List Byte) : (s.writeShadow b).result = s.result := rfl
@[simp] theorem writeShadow_faultCause (b : List Byte) : (s.writeShadow b).faultCause = s.faultCause := rfl
@[simp] theorem writeShadow_transientCause (b : List Byte) : (s.writeShadow b).transientCause = s.transientCause := rfl
@[simp] theorem writeShadow_send (b : List Byte) : (s.writeShadow b).send = s.send := rfl
@[simp] theorem writeShadow_sendValid (b : List Byte) : (s.writeShadow b).sendValid = s.sendValid := rfl
@[simp] theorem writeShadow_sample (b : List Byte) : (s.writeShadow b).sample = s.sample := rfl
@[simp] theorem writeShadow_report (b : List Byte) : (s.writeShadow b).report = s.report := rfl
@[simp] theorem writeShadow_shadow (b : List Byte) : (s.writeShadow b).shadow = some b := rfl
@[simp] theorem writeShadow_cells (b : List Byte) : (s.writeShadow b).cells = s.cells := rfl
@[simp] theorem writeShadow_blinkMode (b : List Byte) : (s.writeShadow b).blinkMode = s.blinkMode := rfl
@[simp] theorem writeShadow_busLog (b : List Byte) : (s.writeShadow b).busLog = s.busLog := rfl
@[simp] theorem writeShadow_busLock (b : List Byte) : (s.writeShadow b).busLock = s.busLock := rfl
@[simp] theorem writeShadow_commands (b : List Byte) : (s.writeShadow b).commands = s.commands := rfl
@[simp] theorem writeShadow_busAnswers (b : List Byte) : (s.writeShadow b).busAnswers = s.busAnswers := rfl
@[simp] theorem writeShadow_busDraws (b : List Byte) : (s.writeShadow b).busDraws = s.busDraws := rfl

@[simp] theorem writeSend_cfg (b : Bool) : (s.writeSend b).cfg = s.cfg := rfl
@[simp] theorem writeSend_result (b : Bool) : (s.writeSend b).result = s.result := rfl
@[simp] theorem writeSend_faultCause (b : Bool) : (s.writeSend b).faultCause = s.faultCause := rfl
@[simp] theorem writeSend_transientCause (b : Bool) : (s.writeSend b).transientCause = s.transientCause := rfl
@[simp] theorem writeSend_send (b : Bool) : (s.writeSend b).send = b := rfl
@[simp] theorem writeSend_sendValid (b : Bool) : (s.writeSend b).sendValid = true := rfl
@[simp] theorem writeSend_sample (b : Bool) : (s.writeSend b).sample = s.sample := rfl
@[simp] theorem writeSend_report (b : Bool) : (s.writeSend b).report = s.report := rfl
@[simp] theorem writeSend_shadow (b : Bool) : (s.writeSend b).shadow = s.shadow := rfl
@[simp] theorem writeSend_cells (b : Bool) : (s.writeSend b).cells = s.cells := rfl
@[simp] theorem writeSend_blinkMode (b : Bool) : (s.writeSend b).blinkMode = s.blinkMode := rfl
@[simp] theorem writeSend_busLog (b : Bool) : (s.writeSend b).busLog = s.busLog := rfl
@[simp] theorem writeSend_busLock (b : Bool) : (s.writeSend b).busLock = s.busLock := rfl
@[simp] theorem writeSend_commands (b : Bool) : (s.writeSend b).commands = s.commands := rfl
@[simp] theorem writeSend_busAnswers (b : Bool) : (s.writeSend b).busAnswers = s.busAnswers := rfl
@[simp] theorem writeSend_busDraws (b : Bool) : (s.writeSend b).busDraws = s.busDraws := rfl

@[simp] theorem writeBlinkMode_cfg (m : BitVec 2) : (s.writeBlinkMode m).cfg = s.cfg := rfl
@[simp] theorem writeBlinkMode_result (m : BitVec 2) : (s.writeBlinkMode m).result = s.result := rfl
@[simp] theorem writeBlinkMode_faultCause (m : BitVec 2) : (s.writeBlinkMode m).faultCause = s.faultCause := rfl
@[simp] theorem writeBlinkMode_transientCause (m : BitVec 2) : (s.writeBlinkMode m).transientCause = s.transientCause := rfl
@[simp] theorem writeBlinkMode_send (m : BitVec 2) : (s.writeBlinkMode m).send = s.send := rfl
@[simp] theorem writeBlinkMode_sendValid (m : BitVec 2) : (s.writeBlinkMode m).sendValid = s.sendValid := rfl
@[simp] theorem writeBlinkMode_sample (m : BitVec 2) : (s.writeBlinkMode m).sample = s.sample := rfl
@[simp] theorem writeBlinkMode_report (m : BitVec 2) : (s.writeBlinkMode m).report = s.report := rfl
@[simp] theorem writeBlinkMode_shadow (m : BitVec 2) : (s.writeBlinkMode m).shadow = s.shadow := rfl
@[simp] theorem writeBlinkMode_cells (m : BitVec 2) : (s.writeBlinkMode m).cells = s.cells := rfl
@[simp] theorem writeBlinkMode_blinkMode (m : BitVec 2) : (s.writeBlinkMode m).blinkMode = some m := rfl
@[simp] theorem writeBlinkMode_busLog (m : BitVec 2) : (s.writeBlinkMode m).busLog = s.busLog := rfl
@[simp] theorem writeBlinkMode_busLock (m : BitVec 2) : (s.writeBlinkMode m).busLock = s.busLock := rfl
@[simp] theorem writeBlinkMode_commands (m : BitVec 2) : (s.writeBlinkMode m).commands = s.commands := rfl
@[simp] theorem writeBlinkMode_busAnswers (m : BitVec 2) : (s.writeBlinkMode m).busAnswers = s.busAnswers := rfl
@[simp] theorem writeBlinkMode_busDraws (m : BitVec 2) : (s.writeBlinkMode m).busDraws = s.busDraws := rfl

@[simp] theorem setLock_cfg (l : BusLock) : (s.setLock l).cfg = s.cfg := rfl
@[simp] theorem setLock_result (l : BusLock) : (s.setLock l).result = s.result := rfl
@[simp] theorem setLock_faultCause (l : BusLock) : (s.setLock l).faultCause = s.faultCause := rfl
@[simp] theorem setLock_transientCause (l : BusLock) : (s.setLock l).transientCause = s.transientCause := rfl
@[simp] theorem setLock_send (l : BusLock) : (s.setLock l).send = s.send := rfl
@[simp] theorem setLock_sendValid (l : BusLock) : (s.setLock l).sendValid = s.sendValid := rfl
@[simp] theorem setLock_sample (l : BusLock) : (s.setLock l).sample = s.sample := rfl
@[simp] theorem setLock_report (l : BusLock) : (s.setLock l).report = s.report := rfl
@[simp] theorem setLock_shadow (l : BusLock) : (s.setLock l).shadow = s.shadow := rfl
@[simp] theorem setLock_cells (l : BusLock) : (s.setLock l).cells = s.cells := rfl
@[simp] theorem setLock_blinkMode (l : BusLock) : (s.setLock l).blinkMode = s.blinkMode := rfl
@[simp] theorem setLock_busLog (l : BusLock) : (s.setLock l).busLog = s.busLog := rfl
@[simp] theorem setLock_busLock (l : BusLock) : (s.setLock l).busLock = l := rfl
@[simp] theorem setLock_commands (l : BusLock) : (s.setLock l).commands = s.commands := rfl
@[simp] theorem setLock_busAnswers (l : BusLock) : (s.setLock l).busAnswers = s.busAnswers := rfl
@[simp] theorem setLock_busDraws (l : BusLock) : (s.setLock l).busDraws = s.busDraws := rfl

@[simp] theorem appendEvent_cfg (e : BusEvent) : (s.appendEvent e).cfg = s.cfg := rfl
@[simp] theorem appendEvent_result (e : BusEvent) : (s.appendEvent e).result = s.result := rfl
@[simp] theorem appendEvent_faultCause (e : BusEvent) : (s.appendEvent e).faultCause = s.faultCause := rfl
@[simp] theorem appendEvent_transientCause (e : BusEvent) : (s.appendEvent e).transientCause = s.transientCause := rfl
@[simp] theorem appendEvent_send (e : BusEvent) : (s.appendEvent e).send = s.send := rfl
@[simp] theorem appendEvent_sendValid (e : BusEvent) : (s.appendEvent e).sendValid = s.sendValid := rfl
@[simp] theorem appendEvent_sample (e : BusEvent) : (s.appendEvent e).sample = s.sample := rfl
@[simp] theorem appendEvent_report (e : BusEvent) : (s.appendEvent e).report = s.report := rfl
@[simp] theorem appendEvent_shadow (e : BusEvent) : (s.appendEvent e).shadow = s.shadow := rfl
@[simp] theorem appendEvent_cells (e : BusEvent) : (s.appendEvent e).cells = s.cells := rfl
@[simp] theorem appendEvent_blinkMode (e : BusEvent) : (s.appendEvent e).blinkMode = s.blinkMode := rfl
@[simp] theorem appendEvent_busLog (e : BusEvent) : (s.appendEvent e).busLog = s.busLog ++ [e] := rfl
@[simp] theorem appendEvent_busLock (e : BusEvent) : (s.appendEvent e).busLock = s.busLock := rfl
@[simp] theorem appendEvent_commands (e : BusEvent) : (s.appendEvent e).commands = s.commands := rfl
@[simp] theorem appendEvent_busAnswers (e : BusEvent) : (s.appendEvent e).busAnswers = s.busAnswers := rfl
@[simp] theorem appendEvent_busDraws (e : BusEvent) : (s.appendEvent e).busDraws = s.busDraws := rfl

@[simp] theorem dropAnswers_cfg (k : Nat) : (s.dropAnswers k).cfg = s.cfg := rfl
@[simp] theorem dropAnswers_result (k : Nat) : (s.dropAnswers k).result = s.result := rfl
@[simp] theorem dropAnswers_faultCause (k : Nat) : (s.dropAnswers k).faultCause = s.faultCause := rfl
@[simp] theorem dropAnswers_transientCause (k : Nat) : (s.dropAnswers k).transientCause = s.transientCause := rfl
@[simp] theorem dropAnswers_send (k : Nat) : (s.dropAnswers k).send = s.send := rfl
@[simp] theorem dropAnswers_sendValid (k : Nat) : (s.dropAnswers k).sendValid = s.sendValid := rfl
@[simp] theorem dropAnswers_sample (k : Nat) : (s.dropAnswers k).sample = s.sample := rfl
@[simp] theorem dropAnswers_report (k : Nat) : (s.dropAnswers k).report = s.report := rfl
@[simp] theorem dropAnswers_shadow (k : Nat) : (s.dropAnswers k).shadow = s.shadow := rfl
@[simp] theorem dropAnswers_cells (k : Nat) : (s.dropAnswers k).cells = s.cells := rfl
@[simp] theorem dropAnswers_blinkMode (k : Nat) : (s.dropAnswers k).blinkMode = s.blinkMode := rfl
@[simp] theorem dropAnswers_busLog (k : Nat) : (s.dropAnswers k).busLog = s.busLog := rfl
@[simp] theorem dropAnswers_busLock (k : Nat) : (s.dropAnswers k).busLock = s.busLock := rfl
@[simp] theorem dropAnswers_commands (k : Nat) : (s.dropAnswers k).commands = s.commands := rfl
@[simp] theorem dropAnswers_busAnswers (k : Nat) : (s.dropAnswers k).busAnswers = s.busAnswers.drop k := rfl
@[simp] theorem dropAnswers_busDraws (k : Nat) : (s.dropAnswers k).busDraws = s.busDraws + (k - s.busAnswers.length) := rfl

@[simp] theorem takeCommand_cfg : s.takeCommand.cfg = s.cfg := rfl
@[simp] theorem takeCommand_result : s.takeCommand.result = s.result := rfl
@[simp] theorem takeCommand_faultCause : s.takeCommand.faultCause = s.faultCause := rfl
@[simp] theorem takeCommand_transientCause : s.takeCommand.transientCause = s.transientCause := rfl
@[simp] theorem takeCommand_send : s.takeCommand.send = s.send := rfl
@[simp] theorem takeCommand_sendValid : s.takeCommand.sendValid = s.sendValid := rfl
@[simp] theorem takeCommand_sample : s.takeCommand.sample = s.sample := rfl
@[simp] theorem takeCommand_report : s.takeCommand.report = s.report := rfl
@[simp] theorem takeCommand_shadow : s.takeCommand.shadow = s.shadow := rfl
@[simp] theorem takeCommand_cells : s.takeCommand.cells = s.cells := rfl
@[simp] theorem takeCommand_blinkMode : s.takeCommand.blinkMode = s.blinkMode := rfl
@[simp] theorem takeCommand_busLog : s.takeCommand.busLog = s.busLog := rfl
@[simp] theorem takeCommand_busLock : s.takeCommand.busLock = s.busLock := rfl
@[simp] theorem takeCommand_commands : s.takeCommand.commands = s.commands.drop 1 := rfl
@[simp] theorem takeCommand_busAnswers : s.takeCommand.busAnswers = s.busAnswers := rfl
@[simp] theorem takeCommand_busDraws : s.takeCommand.busDraws = s.busDraws := rfl

@[simp] theorem withCommands_cfg (cs : List Command) : (s.withCommands cs).cfg = s.cfg := rfl
@[simp] theorem withCommands_result (cs : List Command) : (s.withCommands cs).result = s.result := rfl
@[simp] theorem withCommands_faultCause (cs : List Command) : (s.withCommands cs).faultCause = s.faultCause := rfl
@[simp] theorem withCommands_transientCause (cs : List Command) : (s.withCommands cs).transientCause = s.transientCause := rfl
@[simp] theorem withCommands_send (cs : List Command) : (s.withCommands cs).send = s.send := rfl
@[simp] theorem withCommands_sendValid (cs : List Command) : (s.withCommands cs).sendValid = s.sendValid := rfl
@[simp] theorem withCommands_sample (cs : List Command) : (s.withCommands cs).sample = s.sample := rfl
@[simp] theorem withCommands_report (cs : List Command) : (s.withCommands cs).report = s.report := rfl
@[simp] theorem withCommands_shadow (cs : List Command) : (s.withCommands cs).shadow = s.shadow := rfl
@[simp] theorem withCommands_cells (cs : List Command) : (s.withCommands cs).cells = s.cells := rfl
@[simp] theorem withCommands_blinkMode (cs : List Command) : (s.withCommands cs).blinkMode = s.blinkMode := rfl
@[simp] theorem withCommands_busLog (cs : List Command) : (s.withCommands cs).busLog = s.busLog := rfl
@[simp] theorem withCommands_busLock (cs : List Command) : (s.withCommands cs).busLock = s.busLock := rfl
@[simp] theorem withCommands_commands (cs : List Command) : (s.withCommands cs).commands = s.commands ++ cs := rfl
@[simp] theorem withCommands_busAnswers (cs : List Command) : (s.withCommands cs).busAnswers = s.busAnswers := rfl
@[simp] theorem withCommands_busDraws (cs : List Command) : (s.withCommands cs).busDraws = s.busDraws := rfl

@[simp] theorem withAnswers_cfg (as : List BusAnswer) : (s.withAnswers as).cfg = s.cfg := rfl
@[simp] theorem withAnswers_result (as : List BusAnswer) : (s.withAnswers as).result = s.result := rfl
@[simp] theorem withAnswers_faultCause (as : List BusAnswer) : (s.withAnswers as).faultCause = s.faultCause := rfl
@[simp] theorem withAnswers_transientCause (as : List BusAnswer) : (s.withAnswers as).transientCause = s.transientCause := rfl
@[simp] theorem withAnswers_send (as : List BusAnswer) : (s.withAnswers as).send = s.send := rfl
@[simp] theorem withAnswers_sendValid (as : List BusAnswer) : (s.withAnswers as).sendValid = s.sendValid := rfl
@[simp] theorem withAnswers_sample (as : List BusAnswer) : (s.withAnswers as).sample = s.sample := rfl
@[simp] theorem withAnswers_report (as : List BusAnswer) : (s.withAnswers as).report = s.report := rfl
@[simp] theorem withAnswers_shadow (as : List BusAnswer) : (s.withAnswers as).shadow = s.shadow := rfl
@[simp] theorem withAnswers_cells (as : List BusAnswer) : (s.withAnswers as).cells = s.cells := rfl
@[simp] theorem withAnswers_blinkMode (as : List BusAnswer) : (s.withAnswers as).blinkMode = s.blinkMode := rfl
@[simp] theorem withAnswers_busLog (as : List BusAnswer) : (s.withAnswers as).busLog = s.busLog := rfl
@[simp] theorem withAnswers_busLock (as : List BusAnswer) : (s.withAnswers as).busLock = s.busLock := rfl
@[simp] theorem withAnswers_commands (as : List BusAnswer) : (s.withAnswers as).commands = s.commands := rfl
@[simp] theorem withAnswers_busAnswers (as : List BusAnswer) : (s.withAnswers as).busAnswers = s.busAnswers ++ as := rfl
@[simp] theorem withAnswers_busDraws (as : List BusAnswer) : (s.withAnswers as).busDraws = s.busDraws := rfl

@[simp] theorem withNextCommand_cfg (c : Command) : (s.withNextCommand c).cfg = s.cfg := rfl
@[simp] theorem withNextCommand_result (c : Command) : (s.withNextCommand c).result = s.result := rfl
@[simp] theorem withNextCommand_faultCause (c : Command) : (s.withNextCommand c).faultCause = s.faultCause := rfl
@[simp] theorem withNextCommand_transientCause (c : Command) : (s.withNextCommand c).transientCause = s.transientCause := rfl
@[simp] theorem withNextCommand_send (c : Command) : (s.withNextCommand c).send = s.send := rfl
@[simp] theorem withNextCommand_sendValid (c : Command) : (s.withNextCommand c).sendValid = s.sendValid := rfl
@[simp] theorem withNextCommand_sample (c : Command) : (s.withNextCommand c).sample = s.sample := rfl
@[simp] theorem withNextCommand_report (c : Command) : (s.withNextCommand c).report = s.report := rfl
@[simp] theorem withNextCommand_shadow (c : Command) : (s.withNextCommand c).shadow = s.shadow := rfl
@[simp] theorem withNextCommand_cells (c : Command) : (s.withNextCommand c).cells = s.cells := rfl
@[simp] theorem withNextCommand_blinkMode (c : Command) : (s.withNextCommand c).blinkMode = s.blinkMode := rfl
@[simp] theorem withNextCommand_busLog (c : Command) : (s.withNextCommand c).busLog = s.busLog := rfl
@[simp] theorem withNextCommand_busLock (c : Command) : (s.withNextCommand c).busLock = s.busLock := rfl
@[simp] theorem withNextCommand_commands (c : Command) : (s.withNextCommand c).commands = c :: s.commands := rfl
@[simp] theorem withNextCommand_busAnswers (c : Command) : (s.withNextCommand c).busAnswers = s.busAnswers := rfl
@[simp] theorem withNextCommand_busDraws (c : Command) : (s.withNextCommand c).busDraws = s.busDraws := rfl

@[simp] theorem withDisplay_cfg (cs : Vector (Option Byte) 4) (m : Option (BitVec 2)) :
    (s.withDisplay cs m).cfg = s.cfg := rfl
@[simp] theorem withDisplay_result (cs : Vector (Option Byte) 4) (m : Option (BitVec 2)) :
    (s.withDisplay cs m).result = s.result := rfl
@[simp] theorem withDisplay_faultCause (cs : Vector (Option Byte) 4) (m : Option (BitVec 2)) :
    (s.withDisplay cs m).faultCause = s.faultCause := rfl
@[simp] theorem withDisplay_transientCause (cs : Vector (Option Byte) 4) (m : Option (BitVec 2)) :
    (s.withDisplay cs m).transientCause = s.transientCause := rfl
@[simp] theorem withDisplay_send (cs : Vector (Option Byte) 4) (m : Option (BitVec 2)) :
    (s.withDisplay cs m).send = s.send := rfl
@[simp] theorem withDisplay_sendValid (cs : Vector (Option Byte) 4) (m : Option (BitVec 2)) :
    (s.withDisplay cs m).sendValid = s.sendValid := rfl
@[simp] theorem withDisplay_sample (cs : Vector (Option Byte) 4) (m : Option (BitVec 2)) :
    (s.withDisplay cs m).sample = s.sample := rfl
@[simp] theorem withDisplay_report (cs : Vector (Option Byte) 4) (m : Option (BitVec 2)) :
    (s.withDisplay cs m).report = s.report := rfl
@[simp] theorem withDisplay_shadow (cs : Vector (Option Byte) 4) (m : Option (BitVec 2)) :
    (s.withDisplay cs m).shadow = s.shadow := rfl
@[simp] theorem withDisplay_cells (cs : Vector (Option Byte) 4) (m : Option (BitVec 2)) :
    (s.withDisplay cs m).cells = cs := rfl
@[simp] theorem withDisplay_blinkMode (cs : Vector (Option Byte) 4) (m : Option (BitVec 2)) :
    (s.withDisplay cs m).blinkMode = m := rfl
@[simp] theorem withDisplay_busLog (cs : Vector (Option Byte) 4) (m : Option (BitVec 2)) :
    (s.withDisplay cs m).busLog = s.busLog := rfl
@[simp] theorem withDisplay_busLock (cs : Vector (Option Byte) 4) (m : Option (BitVec 2)) :
    (s.withDisplay cs m).busLock = s.busLock := rfl
@[simp] theorem withDisplay_commands (cs : Vector (Option Byte) 4) (m : Option (BitVec 2)) :
    (s.withDisplay cs m).commands = s.commands := rfl
@[simp] theorem withDisplay_busAnswers (cs : Vector (Option Byte) 4) (m : Option (BitVec 2)) :
    (s.withDisplay cs m).busAnswers = s.busAnswers := rfl
@[simp] theorem withDisplay_busDraws (cs : Vector (Option Byte) 4) (m : Option (BitVec 2)) :
    (s.withDisplay cs m).busDraws = s.busDraws := rfl

@[simp] theorem withReportPath_cfg (x : Option Sample) (r h : Option (List Byte)) (b v : Bool) :
    (s.withReportPath x r h b v).cfg = s.cfg := rfl
@[simp] theorem withReportPath_result (x : Option Sample) (r h : Option (List Byte)) (b v : Bool) :
    (s.withReportPath x r h b v).result = s.result := rfl
@[simp] theorem withReportPath_faultCause (x : Option Sample) (r h : Option (List Byte)) (b v : Bool) :
    (s.withReportPath x r h b v).faultCause = s.faultCause := rfl
@[simp] theorem withReportPath_transientCause (x : Option Sample) (r h : Option (List Byte)) (b v : Bool) :
    (s.withReportPath x r h b v).transientCause = s.transientCause := rfl
@[simp] theorem withReportPath_send (x : Option Sample) (r h : Option (List Byte)) (b v : Bool) :
    (s.withReportPath x r h b v).send = b := rfl
@[simp] theorem withReportPath_sendValid (x : Option Sample) (r h : Option (List Byte)) (b v : Bool) :
    (s.withReportPath x r h b v).sendValid = v := rfl
@[simp] theorem withReportPath_sample (x : Option Sample) (r h : Option (List Byte)) (b v : Bool) :
    (s.withReportPath x r h b v).sample = x := rfl
@[simp] theorem withReportPath_report (x : Option Sample) (r h : Option (List Byte)) (b v : Bool) :
    (s.withReportPath x r h b v).report = r := rfl
@[simp] theorem withReportPath_shadow (x : Option Sample) (r h : Option (List Byte)) (b v : Bool) :
    (s.withReportPath x r h b v).shadow = h := rfl
@[simp] theorem withReportPath_cells (x : Option Sample) (r h : Option (List Byte)) (b v : Bool) :
    (s.withReportPath x r h b v).cells = s.cells := rfl
@[simp] theorem withReportPath_blinkMode (x : Option Sample) (r h : Option (List Byte)) (b v : Bool) :
    (s.withReportPath x r h b v).blinkMode = s.blinkMode := rfl
@[simp] theorem withReportPath_busLog (x : Option Sample) (r h : Option (List Byte)) (b v : Bool) :
    (s.withReportPath x r h b v).busLog = s.busLog := rfl
@[simp] theorem withReportPath_busLock (x : Option Sample) (r h : Option (List Byte)) (b v : Bool) :
    (s.withReportPath x r h b v).busLock = s.busLock := rfl
@[simp] theorem withReportPath_commands (x : Option Sample) (r h : Option (List Byte)) (b v : Bool) :
    (s.withReportPath x r h b v).commands = s.commands := rfl
@[simp] theorem withReportPath_busAnswers (x : Option Sample) (r h : Option (List Byte)) (b v : Bool) :
    (s.withReportPath x r h b v).busAnswers = s.busAnswers := rfl
@[simp] theorem withReportPath_busDraws (x : Option Sample) (r h : Option (List Byte)) (b v : Bool) :
    (s.withReportPath x r h b v).busDraws = s.busDraws := rfl

@[simp] theorem afterBus_cfg (n : Nat) (es : List BusEvent) : (s.afterBus n es).cfg = s.cfg := rfl
@[simp] theorem afterBus_result (n : Nat) (es : List BusEvent) : (s.afterBus n es).result = s.result := rfl
@[simp] theorem afterBus_faultCause (n : Nat) (es : List BusEvent) : (s.afterBus n es).faultCause = s.faultCause := rfl
@[simp] theorem afterBus_transientCause (n : Nat) (es : List BusEvent) :
    (s.afterBus n es).transientCause = s.transientCause := rfl
@[simp] theorem afterBus_send (n : Nat) (es : List BusEvent) : (s.afterBus n es).send = s.send := rfl
@[simp] theorem afterBus_sendValid (n : Nat) (es : List BusEvent) : (s.afterBus n es).sendValid = s.sendValid := rfl
@[simp] theorem afterBus_sample (n : Nat) (es : List BusEvent) : (s.afterBus n es).sample = s.sample := rfl
@[simp] theorem afterBus_report (n : Nat) (es : List BusEvent) : (s.afterBus n es).report = s.report := rfl
@[simp] theorem afterBus_shadow (n : Nat) (es : List BusEvent) : (s.afterBus n es).shadow = s.shadow := rfl
@[simp] theorem afterBus_cells (n : Nat) (es : List BusEvent) : (s.afterBus n es).cells = s.cells := rfl
@[simp] theorem afterBus_blinkMode (n : Nat) (es : List BusEvent) : (s.afterBus n es).blinkMode = s.blinkMode := rfl
@[simp] theorem afterBus_busLog (n : Nat) (es : List BusEvent) : (s.afterBus n es).busLog = s.busLog ++ es := rfl
@[simp] theorem afterBus_busLock (n : Nat) (es : List BusEvent) : (s.afterBus n es).busLock = .free := rfl
@[simp] theorem afterBus_commands (n : Nat) (es : List BusEvent) : (s.afterBus n es).commands = s.commands := rfl
@[simp] theorem afterBus_busAnswers (n : Nat) (es : List BusEvent) : (s.afterBus n es).busAnswers = s.busAnswers.drop n := rfl
@[simp] theorem afterBus_busDraws (n : Nat) (es : List BusEvent) :
    (s.afterBus n es).busDraws = s.busDraws + (n - s.busAnswers.length) := rfl

end Updates

end Sys2Proof.Machine
end

