-- ==== Sys2Proof/Laws/Bus.lean ====
section
/-! SUPPORT. What the bus operations can do, said once: every one of them leaves the state `s.afterBus n es`, that is
`n` oracle answers used, `n` events recorded and the lock free (20_memory.md R53 to R57). -/

namespace Sys2Proof.Machine

@[simp] theorem answerAt_setLock (s : State) (l : BusLock) (k : Nat) : (s.setLock l).answerAt k = s.answerAt k := rfl

theorem answerAt_afterBus (s : State) (n : Nat) (es : List BusEvent) (k : Nat) :
    (s.afterBus n es).answerAt k = s.answerAt (n + k) := by
  simp only [State.answerAt, afterBus_busAnswers, afterBus_busDraws, List.getElem?_drop, List.length_drop]
  cases h : s.busAnswers[n + k]? with
  | some a => rfl
  | none =>
    have hl : s.busAnswers.length ≤ n + k := List.getElem?_eq_none_iff.mp h
    show Config.busDraw _ = Config.busDraw _
    congr 1
    omega

theorem afterBus_afterBus (s : State) (m n : Nat) (es fs : List BusEvent) :
    (s.afterBus m es).afterBus n fs = s.afterBus (m + n) (es ++ fs) := by
  have hd : s.busDraws + (m - s.busAnswers.length) + (n - (s.busAnswers.length - m)) =
      s.busDraws + (m + n - s.busAnswers.length) := by omega
  simp [State.afterBus, List.append_assoc, List.drop_drop, hd]

/-- One transaction: everything it can do. -/
theorem transact_eq {α : Type} (s : State) (accept : List Byte → Int → α) (okEvent : α → BusEvent) (errEvent : BusEvent) :
    s.transact accept okEvent errEvent =
      match s.answerAt 0 with
      | .ok bytes n => .ok (accept bytes n) (s.afterBus 1 [okEvent (accept bytes n)])
      | .err => .err (s.afterBus 1 [errEvent])
      | .never => .hung := by
  unfold State.transact
  rw [answerAt_setLock]
  cases s.answerAt 0 <;> rfl

theorem busReadBlock_eq (s : State) (k : Nat) :
    s.busReadBlock k =
      match s.answerAt 0 with
      | .ok bytes _ => .ok (shapeBlock (s.cfg.digLen k) bytes) (s.afterBus 1 [.rdBlk k (shapeBlock (s.cfg.digLen k) bytes)])
      | .err => .err (s.afterBus 1 [.rdBlkErr k])
      | .never => .hung := by
  unfold State.busReadBlock
  rw [transact_eq]

theorem busReadRaw_eq (s : State) (j : Nat) :
    s.busReadRaw j =
      match s.answerAt 0 with
      | .ok _ n => .ok (shapeRaw s.cfg n) (s.afterBus 1 [.rdRaw j (shapeRaw s.cfg n)])
      | .err => .err (s.afterBus 1 [.rdRawErr j])
      | .never => .hung := by
  unfold State.busReadRaw
  rw [transact_eq]

theorem busWrite_eq (s : State) (bytes : List Byte) :
    s.busWrite bytes =
      match s.answerAt 0 with
      | .ok _ _ => .ok () (s.afterBus 1 [.wr bytes])
      | .err => .err (s.afterBus 1 [.wrErr bytes])
      | .never => .hung := by
  unfold State.busWrite
  rw [transact_eq]

/-- How a bus operation ends: with `s.afterBus n es`, one event for each answer used, and an answer that never comes if
it hangs. -/
def BusResult.endsFrom {α : Type} (r : BusResult α) (s : State) : Prop :=
  match r with
  | .ok _ s' => ∃ es, s' = s.afterBus es.length es
  | .err s' => ∃ es, s' = s.afterBus es.length es
  | .hung => ∃ k, s.answerAt k = .never

theorem busReadBlock_endsFrom (s : State) (k : Nat) : (s.busReadBlock k).endsFrom s := by
  rw [busReadBlock_eq]
  cases h : s.answerAt 0 with
  | ok bytes n => exact ⟨[_], rfl⟩
  | err => exact ⟨[_], rfl⟩
  | never => exact ⟨0, h⟩

theorem busReadRaw_endsFrom (s : State) (j : Nat) : (s.busReadRaw j).endsFrom s := by
  rw [busReadRaw_eq]
  cases h : s.answerAt 0 with
  | ok bytes n => exact ⟨[_], rfl⟩
  | err => exact ⟨[_], rfl⟩
  | never => exact ⟨0, h⟩

theorem busWrite_endsFrom (s : State) (bytes : List Byte) : (s.busWrite bytes).endsFrom s := by
  rw [busWrite_eq]
  cases h : s.answerAt 0 with
  | ok bytes n => exact ⟨[_], rfl⟩
  | err => exact ⟨[_], rfl⟩
  | never => exact ⟨0, h⟩

/-- What a later operation does from `s.afterBus n es`, seen from `s`. -/
theorem endsFrom_afterBus {α : Type} {r : BusResult α} {s : State} {es : List BusEvent}
    (h : r.endsFrom (s.afterBus es.length es)) : r.endsFrom s := by
  cases r with
  | ok a s' =>
    obtain ⟨fs, rfl⟩ := h
    exact ⟨es ++ fs, by rw [afterBus_afterBus, List.length_append]⟩
  | err s' =>
    obtain ⟨fs, rfl⟩ := h
    exact ⟨es ++ fs, by rw [afterBus_afterBus, List.length_append]⟩
  | hung =>
    obtain ⟨k, hk⟩ := h
    exact ⟨es.length + k, by rw [← answerAt_afterBus s es.length es k]; exact hk⟩

theorem endsFrom_self {α : Type} (a : α) (s : State) (h : s.busLock = .free) : (BusResult.ok a s).endsFrom s :=
  ⟨[], by
    show s = { s with busLog := s.busLog ++ [], busLock := .free, busAnswers := s.busAnswers.drop 0, busDraws := _ }
    cases s
    simp_all⟩

theorem busWrites_endsFrom (s : State) (ws : List (List Byte)) (h : s.busLock = .free) : (s.busWrites ws).endsFrom s := by
  induction ws generalizing s with
  | nil => exact endsFrom_self () s h
  | cons bytes rest ih =>
    have h1 := busWrite_endsFrom s bytes
    unfold State.busWrites
    cases hw : s.busWrite bytes with
    | ok u s1 =>
      rw [hw] at h1
      obtain ⟨es, rfl⟩ := h1
      exact endsFrom_afterBus (ih _ rfl)
    | err s1 => rw [hw] at h1; exact h1
    | hung => rw [hw] at h1; exact h1

theorem readBlocks_endsFrom (s : State) (ks : List Nat) (h : s.busLock = .free) : (s.readBlocks ks).endsFrom s := by
  induction ks generalizing s with
  | nil => exact endsFrom_self [] s h
  | cons k ks ih =>
    have h1 := busReadBlock_endsFrom s k
    unfold State.readBlocks
    cases hw : s.busReadBlock k with
    | ok bytes s1 =>
      rw [hw] at h1
      obtain ⟨es, rfl⟩ := h1
      have h2 := endsFrom_afterBus (ih (s.afterBus es.length es) rfl)
      cases hr : (s.afterBus es.length es).readBlocks ks with
      | ok more s2 => rw [hr] at h2; simp only [hr]; exact h2
      | err s2 => rw [hr] at h2; simp only [hr]; exact h2
      | hung => rw [hr] at h2; simp only [hr]; exact h2
    | err s1 => rw [hw] at h1; exact h1
    | hung => rw [hw] at h1; exact h1

theorem readRaws_endsFrom (s : State) (js : List Nat) (h : s.busLock = .free) : (s.readRaws js).endsFrom s := by
  induction js generalizing s with
  | nil => exact endsFrom_self [] s h
  | cons j js ih =>
    have h1 := busReadRaw_endsFrom s j
    unfold State.readRaws
    cases hw : s.busReadRaw j with
    | ok n s1 =>
      rw [hw] at h1
      obtain ⟨es, rfl⟩ := h1
      have h2 := endsFrom_afterBus (ih (s.afterBus es.length es) rfl)
      cases hr : (s.afterBus es.length es).readRaws js with
      | ok more s2 => rw [hr] at h2; simp only [hr]; exact h2
      | err s2 => rw [hr] at h2; simp only [hr]; exact h2
      | hung => rw [hr] at h2; simp only [hr]; exact h2
    | err s1 => rw [hw] at h1; exact h1
    | hung => rw [hw] at h1; exact h1

/-- What the shape of a block is (R53, R57). -/
@[simp] theorem shapeBlock_length (len : Nat) (bytes : List Byte) : (shapeBlock len bytes).length = len := by
  simp [shapeBlock]

/-- The raw sample a transaction returns lies in RAW_LO..RAW_HI (R57). -/
theorem shapeRaw_range (cfg : Config) (n : Int) (h : cfg.rawLo ≤ cfg.rawHi) :
    cfg.rawLo ≤ shapeRaw cfg n ∧ shapeRaw cfg n ≤ cfg.rawHi := by
  unfold shapeRaw
  omega

end Sys2Proof.Machine
end

