-- ==== Sys2Proof/Laws/Aggregator.lean ====
section
/-! SUPPORT. What the read and write sequences can do (40_aggregator.md R101 to R107, 43_display_transport.md R183), what the
bit stream holds (R102, R103), and the configuration check as the ranges it checks (60_exceptions.md R204). -/

namespace Sys2Proof.Machine

@[simp] theorem afterReads_cfg (s : State) (es) : (s.afterReads es).cfg = s.cfg := by unfold State.afterReads; split <;> rfl
@[simp] theorem afterReads_sample (s : State) (es) : (s.afterReads es).sample = s.sample := by unfold State.afterReads; split <;> rfl
@[simp] theorem afterReads_report (s : State) (es) : (s.afterReads es).report = s.report := by unfold State.afterReads; split <;> rfl
@[simp] theorem afterReads_shadow (s : State) (es) : (s.afterReads es).shadow = s.shadow := by unfold State.afterReads; split <;> rfl
@[simp] theorem afterReads_send (s : State) (es) : (s.afterReads es).send = s.send := by unfold State.afterReads; split <;> rfl
@[simp] theorem afterReads_sendValid (s : State) (es) : (s.afterReads es).sendValid = s.sendValid := by unfold State.afterReads; split <;> rfl
@[simp] theorem afterReads_cells (s : State) (es) : (s.afterReads es).cells = s.cells := by unfold State.afterReads; split <;> rfl
@[simp] theorem afterReads_blink (s : State) (es) : (s.afterReads es).blinkMode = s.blinkMode := by unfold State.afterReads; split <;> rfl
@[simp] theorem afterReads_commands (s : State) (es) : (s.afterReads es).commands = s.commands := by unfold State.afterReads; split <;> rfl
@[simp] theorem afterReads_fault (s : State) (es) : (s.afterReads es).faultCause = s.faultCause := by unfold State.afterReads; split <;> rfl

theorem afterBus_nil (s : State) (h : s.busLock = .free) : s.afterBus 0 [] = s := by
  simp only [State.afterBus]
  cases s
  simp_all

/-- Block reads that all succeed. -/
theorem readBlocks_ok (n a : Nat) (s : State) (hl : s.busLock = .free ∨ 0 < n) (h : s.busOk n) :
    s.readBlocks (List.range' a n) =
      .ok ((List.range' a n).flatMap fun k => shapeBlock (s.cfg.digLen k) (answerBytes (s.answerAt (k - a))))
        (s.afterBus n ((List.range' a n).map fun k =>
          .rdBlk k (shapeBlock (s.cfg.digLen k) (answerBytes (s.answerAt (k - a)))))) := by
  induction n generalizing a s with
  | zero =>
    rcases hl with hl | hl
    · simp [State.readBlocks, afterBus_nil s hl]
    · omega
  | succ n ih =>
    obtain ⟨bytes, m, h0⟩ := h 0 (by omega)
    have hb0 : answerBytes (s.answerAt 0) = bytes := by rw [h0]; rfl
    have hok : (s.afterBus 1 [.rdBlk a (shapeBlock (s.cfg.digLen a) bytes)]).busOk n := fun k hk => by
      rw [answerAt_afterBus]
      exact h (1 + k) (by omega)
    have hcongr : ∀ k ∈ List.range' (a + 1) n, s.answerAt (1 + (k - (a + 1))) = s.answerAt (k - a) := fun k hk => by
      have := List.mem_range'_1.mp hk
      congr 1
      omega
    rw [List.range'_succ]
    simp only [State.readBlocks, busReadBlock_eq, h0]
    rw [ih (a + 1) _ (.inl rfl) hok]
    simp only [afterBus_afterBus, answerAt_afterBus, afterBus_cfg, List.flatMap_cons, List.map_cons, Nat.sub_self, hb0,
      BusResult.ok.injEq]
    have e1 : ∀ k ∈ List.range' (a + 1) n, shapeBlock (s.cfg.digLen k) (answerBytes (s.answerAt (1 + (k - (a + 1))))) =
        shapeBlock (s.cfg.digLen k) (answerBytes (s.answerAt (k - a))) := fun k hk => by rw [hcongr k hk]
    refine ⟨?_, ?_⟩
    · congr 1
      exact List.flatMap_congr e1
    · rw [List.map_congr_left (fun k hk => by rw [e1 k hk]), Nat.add_comm 1 n]
      rfl

/-- Raw reads that all succeed. -/
theorem readRaws_ok (n a : Nat) (s : State) (hl : s.busLock = .free ∨ 0 < n) (h : s.busOk n) :
    s.readRaws (List.range' a n) =
      .ok ((List.range' a n).map fun j => shapeRaw s.cfg (answerSample (s.answerAt (j - a))))
        (s.afterBus n ((List.range' a n).map fun j => .rdRaw j (shapeRaw s.cfg (answerSample (s.answerAt (j - a)))))) := by
  induction n generalizing a s with
  | zero =>
    rcases hl with hl | hl
    · simp [State.readRaws, afterBus_nil s hl]
    · omega
  | succ n ih =>
    obtain ⟨bytes, m, h0⟩ := h 0 (by omega)
    have hb0 : answerSample (s.answerAt 0) = m := by rw [h0]; rfl
    have hok : (s.afterBus 1 [.rdRaw a (shapeRaw s.cfg m)]).busOk n := fun k hk => by
      rw [answerAt_afterBus]
      exact h (1 + k) (by omega)
    have e1 : ∀ k ∈ List.range' (a + 1) n, shapeRaw s.cfg (answerSample (s.answerAt (1 + (k - (a + 1))))) =
        shapeRaw s.cfg (answerSample (s.answerAt (k - a))) := fun k hk => by
      have := List.mem_range'_1.mp hk
      congr 3
      omega
    rw [List.range'_succ]
    simp only [State.readRaws, busReadRaw_eq, h0]
    rw [ih (a + 1) _ (.inl rfl) hok]
    simp only [afterBus_afterBus, answerAt_afterBus, afterBus_cfg, List.map_cons, Nat.sub_self, hb0,
      BusResult.ok.injEq]
    refine ⟨?_, ?_⟩
    · congr 1
      exact List.map_congr_left e1
    · rw [List.map_congr_left (fun k hk => by rw [e1 k hk]), Nat.add_comm 1 n]
      rfl

/-- The first block read that fails. -/
theorem readBlocks_err (k n a : Nat) (s : State) (hk : k < n) (h : s.busOk k) (he : s.answerAt k = .err) :
    s.readBlocks (List.range' a n) =
      .err (s.afterBus (k + 1) (((List.range' a k).map fun j =>
          .rdBlk j (shapeBlock (s.cfg.digLen j) (answerBytes (s.answerAt (j - a))))) ++ [.rdBlkErr (a + k)])) := by
  induction k generalizing n a s with
  | zero =>
    obtain ⟨n, rfl⟩ : ∃ m, n = m + 1 := ⟨n - 1, by omega⟩
    simp [List.range'_succ, State.readBlocks, busReadBlock_eq, he]
  | succ k ih =>
    obtain ⟨n, rfl⟩ : ∃ m, n = m + 1 := ⟨n - 1, by omega⟩
    obtain ⟨bytes, m, h0⟩ := h 0 (by omega)
    have hb0 : answerBytes (s.answerAt 0) = bytes := by rw [h0]; rfl
    have hok : (s.afterBus 1 [.rdBlk a (shapeBlock (s.cfg.digLen a) bytes)]).busOk k := fun j hj => by
      rw [answerAt_afterBus]
      exact h (1 + j) (by omega)
    have e1 : ∀ j ∈ List.range' (a + 1) k, shapeBlock (s.cfg.digLen j) (answerBytes (s.answerAt (1 + (j - (a + 1))))) =
        shapeBlock (s.cfg.digLen j) (answerBytes (s.answerAt (j - a))) := fun j hj => by
      have := List.mem_range'_1.mp hj
      congr 3
      omega
    rw [List.range'_succ, List.range'_succ]
    simp only [State.readBlocks, busReadBlock_eq, h0]
    rw [ih n (a + 1) _ (by omega) hok (by rw [answerAt_afterBus, Nat.add_comm]; exact he)]
    simp only [afterBus_afterBus, answerAt_afterBus, afterBus_cfg, List.map_cons, Nat.sub_self, hb0]
    rw [List.map_congr_left (fun k hk => by rw [e1 k hk]), Nat.add_comm 1 (k + 1), Nat.add_right_comm a 1 k]
    rfl

/-- The first raw read that fails. -/
theorem readRaws_err (k n a : Nat) (s : State) (hk : k < n) (h : s.busOk k) (he : s.answerAt k = .err) :
    s.readRaws (List.range' a n) =
      .err (s.afterBus (k + 1) (((List.range' a k).map fun j =>
          .rdRaw j (shapeRaw s.cfg (answerSample (s.answerAt (j - a))))) ++ [.rdRawErr (a + k)])) := by
  induction k generalizing n a s with
  | zero =>
    obtain ⟨n, rfl⟩ : ∃ m, n = m + 1 := ⟨n - 1, by omega⟩
    simp [List.range'_succ, State.readRaws, busReadRaw_eq, he]
  | succ k ih =>
    obtain ⟨n, rfl⟩ : ∃ m, n = m + 1 := ⟨n - 1, by omega⟩
    obtain ⟨bytes, m, h0⟩ := h 0 (by omega)
    have hb0 : answerSample (s.answerAt 0) = m := by rw [h0]; rfl
    have hok : (s.afterBus 1 [.rdRaw a (shapeRaw s.cfg m)]).busOk k := fun j hj => by
      rw [answerAt_afterBus]
      exact h (1 + j) (by omega)
    have e1 : ∀ j ∈ List.range' (a + 1) k, shapeRaw s.cfg (answerSample (s.answerAt (1 + (j - (a + 1))))) =
        shapeRaw s.cfg (answerSample (s.answerAt (j - a))) := fun j hj => by
      have := List.mem_range'_1.mp hj
      congr 3
      omega
    rw [List.range'_succ, List.range'_succ]
    simp only [State.readRaws, busReadRaw_eq, h0]
    rw [ih n (a + 1) _ (by omega) hok (by rw [answerAt_afterBus, Nat.add_comm]; exact he)]
    simp only [afterBus_afterBus, answerAt_afterBus, afterBus_cfg, List.map_cons, Nat.sub_self, hb0]
    rw [List.map_congr_left (fun k hk => by rw [e1 k hk]), Nat.add_comm 1 (k + 1), Nat.add_right_comm a 1 k]
    rfl

theorem bitStream_getElem? (bytes : List Byte) (t : Nat) (h : t < 8 * bytes.length) :
    (bitStream bytes)[t]? = some (streamBit bytes t) := by
  induction bytes generalizing t with
  | nil => simp at h
  | cons b bs ih =>
    simp only [bitStream, List.flatMap_cons, unpackByte]
    by_cases ht : t < 8
    · rw [List.getElem?_append_left (by simpa using ht)]
      have hd : t / 8 = 0 := by omega
      have hm : t % 8 = t := by omega
      simp [streamBit, ht, hd, hm]
    · rw [List.getElem?_append_right (by simp; omega)]
      have := ih (t - 8) (by simp at h; omega)
      simp only [bitStream] at this
      simp only [List.length_map, List.length_range]
      refine this.trans ?_
      have hd : t / 8 = (t - 8) / 8 + 1 := by omega
      have hm : t % 8 = (t - 8) % 8 := by omega
      simp [streamBit, hd, hm]

theorem bitStream_length (bytes : List Byte) : (bitStream bytes).length = 8 * bytes.length := by
  induction bytes with
  | nil => rfl
  | cons b bs ih =>
    simp only [bitStream, List.flatMap_cons, List.length_append, unpackByte, List.length_map, List.length_range,
      List.length_cons] at *
    omega

theorem bitStream_take (bytes : List Byte) (n : Nat) (h : n ≤ 8 * bytes.length) :
    (bitStream bytes).take n = (List.range n).map (streamBit bytes) := by
  apply List.ext_getElem?
  intro t
  by_cases ht : t < n
  · rw [List.getElem?_take_of_lt ht, bitStream_getElem? bytes t (by omega)]
    simp [ht]
  · rw [List.getElem?_eq_none (by simp; omega), List.getElem?_eq_none (by simp; omega)]

theorem check_none (c : Config) : c.check = .none ↔
    (c.paramsAdmitted = true ∧ c.capacityMet = true ∧ c.calibrated = true) := by
  unfold Config.check
  cases c.paramsAdmitted <;> cases c.capacityMet <;> cases c.calibrated <;> simp

theorem paramsAdmitted_iff (c : Config) : c.paramsAdmitted = true ↔ paramRanges c ∧ c.deviceIds.Nodup := by
  simp only [Config.paramsAdmitted, paramRanges, Bool.and_eq_true, decide_eq_true_eq, List.all_eq_true, Bool.not_eq_true',
    List.isEmpty_eq_false_iff, inS32, fitsS32]
  unfold Config.numDig Config.axisCount
  have hv : (∀ x ∈ c.cmdBlink.toList, x ≠ []) ↔ ∀ m : Fin 4, c.cmdBlink[m] ≠ [] := by
    constructor
    · intro h m
      exact h _ (by simp)
    · intro h x hx
      obtain ⟨i, hi, rfl⟩ := List.getElem_of_mem hx
      have hi' : i < 4 := by simpa using hi
      simpa using h ⟨i, hi'⟩
  rw [hv]
  norm_num
  tauto

theorem sampleBytes_length_aux (c : Config) (f : Nat → List Byte) (hf : ∀ k, (f k).length = c.digLen k) :
    8 * ((List.range c.numDig).flatMap f).length = c.digCapacity := by
  unfold Config.digCapacity
  congr 1
  rw [List.length_flatMap]
  congr 1
  apply List.ext_getElem?
  intro t
  by_cases ht : t < c.digSources.length
  · simp [Config.numDig, ht, hf, Config.digLen]
  · rw [List.getElem?_eq_none (by simpa [Config.numDig] using ht), List.getElem?_eq_none (by simpa using ht)]

theorem afterReads_nil (s : State) : s.afterReads [] = s := rfl

theorem afterBus_afterReads (s : State) (e : BusEvent) (es : List BusEvent) :
    (s.afterBus 1 [e]).afterReads es = s.afterReads (e :: es) := by
  unfold State.afterReads
  cases es with
  | nil => rfl
  | cons f fs => simp [afterBus_afterBus, Nat.add_comm]

/-- Everything block reads in a row can do. -/
theorem readBlocks_spec (s : State) (ks : List Nat) :
    match s.readBlocks ks with
    | .ok bytes s' => ∃ es : List BusEvent, es.length = ks.length ∧ s' = s.afterReads es ∧
        bytes.length = (ks.map s.cfg.digLen).sum ∧
        ∀ e ∈ es, e.failed = false ∧ ∃ k ∈ ks, ∃ b, e = .rdBlk k b ∧ b.length = s.cfg.digLen k
    | .err s' => ∃ (es : List BusEvent) (k : Nat), k ∈ ks ∧ s' = s.afterBus (es.length + 1) (es ++ [.rdBlkErr k]) ∧
        ∀ e ∈ es, e.failed = false ∧ ∃ k ∈ ks, ∃ b, e = .rdBlk k b ∧ b.length = s.cfg.digLen k
    | .hung => ∃ k < ks.length, s.answerAt k = .never := by
  induction ks generalizing s with
  | nil => exact ⟨[], rfl, rfl, rfl, by simp⟩
  | cons k ks ih =>
    simp only [State.readBlocks, busReadBlock_eq]
    cases h0 : s.answerAt 0 with
    | err => exact ⟨[], k, by simp, rfl, by simp⟩
    | never => exact ⟨0, by simp, h0⟩
    | ok bytes m =>
      simp only
      have h1 := ih (s.afterBus 1 [.rdBlk k (shapeBlock (s.cfg.digLen k) bytes)])
      cases hr : (s.afterBus 1 [.rdBlk k (shapeBlock (s.cfg.digLen k) bytes)]).readBlocks ks with
      | ok more s2 =>
        rw [hr] at h1
        obtain ⟨es, hl, hs, hb, he⟩ := h1
        refine ⟨.rdBlk k (shapeBlock (s.cfg.digLen k) bytes) :: es, by simp [hl], by rw [hs, afterBus_afterReads], ?_, ?_⟩
        · simp only [List.length_append, shapeBlock_length, hb, List.map_cons, List.sum_cons]
          rfl
        · intro e hm
          rcases List.mem_cons.mp hm with rfl | hm
          · exact ⟨rfl, k, by simp, _, rfl, by simp⟩
          · obtain ⟨h1, j, hj, b, hb⟩ := he e hm
            exact ⟨h1, j, by simp [hj], b, hb⟩
      | err s2 =>
        rw [hr] at h1
        obtain ⟨es, j, hj, hs, he⟩ := h1
        refine ⟨.rdBlk k (shapeBlock (s.cfg.digLen k) bytes) :: es, j, by simp [hj], ?_, ?_⟩
        · rw [hs, afterBus_afterBus]
          simp [Nat.add_comm]
        · intro e hm
          rcases List.mem_cons.mp hm with rfl | hm
          · exact ⟨rfl, k, by simp, _, rfl, by simp⟩
          · obtain ⟨h1, j, hj, b, hb⟩ := he e hm
            exact ⟨h1, j, by simp [hj], b, hb⟩
      | hung =>
        rw [hr] at h1
        obtain ⟨j, hj, hn⟩ := h1
        exact ⟨1 + j, by simp; omega, by rw [answerAt_afterBus] at hn; exact hn⟩

/-- Everything raw reads in a row can do. -/
theorem readRaws_spec (s : State) (js : List Nat) :
    match s.readRaws js with
    | .ok ns s' => ∃ es : List BusEvent, es.length = js.length ∧ s' = s.afterReads es ∧
        ns.length = js.length ∧ (∀ n ∈ ns, ∃ m, n = shapeRaw s.cfg m) ∧
        ∀ e ∈ es, e.failed = false ∧ ∃ j ∈ js, ∃ m, e = .rdRaw j (shapeRaw s.cfg m)
    | .err s' => ∃ (es : List BusEvent) (j : Nat), j ∈ js ∧ s' = s.afterBus (es.length + 1) (es ++ [.rdRawErr j]) ∧
        ∀ e ∈ es, e.failed = false ∧ ∃ j ∈ js, ∃ m, e = .rdRaw j (shapeRaw s.cfg m)
    | .hung => ∃ k < js.length, s.answerAt k = .never := by
  induction js generalizing s with
  | nil => exact ⟨[], rfl, rfl, rfl, by simp, by simp⟩
  | cons k ks ih =>
    simp only [State.readRaws, busReadRaw_eq]
    cases h0 : s.answerAt 0 with
    | err => exact ⟨[], k, by simp, rfl, by simp⟩
    | never => exact ⟨0, by simp, h0⟩
    | ok bytes m =>
      simp only
      have h1 := ih (s.afterBus 1 [.rdRaw k (shapeRaw s.cfg m)])
      cases hr : (s.afterBus 1 [.rdRaw k (shapeRaw s.cfg m)]).readRaws ks with
      | ok more s2 =>
        rw [hr] at h1
        obtain ⟨es, hl, hs, hb, hn, he⟩ := h1
        refine ⟨.rdRaw k (shapeRaw s.cfg m) :: es, by simp [hl], by rw [hs, afterBus_afterReads], by simp [hb], ?_, ?_⟩
        · intro n hm
          rcases List.mem_cons.mp hm with rfl | hm
          · exact ⟨m, rfl⟩
          · exact hn n hm
        · intro e hm
          rcases List.mem_cons.mp hm with rfl | hm
          · exact ⟨rfl, k, by simp, _, rfl⟩
          · obtain ⟨h1, j, hj, b, hb⟩ := he e hm
            exact ⟨h1, j, by simp [hj], b, hb⟩
      | err s2 =>
        rw [hr] at h1
        obtain ⟨es, j, hj, hs, he⟩ := h1
        refine ⟨.rdRaw k (shapeRaw s.cfg m) :: es, j, by simp [hj], ?_, ?_⟩
        · rw [hs, afterBus_afterBus]
          simp [Nat.add_comm]
        · intro e hm
          rcases List.mem_cons.mp hm with rfl | hm
          · exact ⟨rfl, k, by simp, _, rfl⟩
          · obtain ⟨h1, j, hj, b, hb⟩ := he e hm
            exact ⟨h1, j, by simp [hj], b, hb⟩
      | hung =>
        rw [hr] at h1
        obtain ⟨j, hj, hn⟩ := h1
        exact ⟨1 + j, by simp; omega, by rw [answerAt_afterBus] at hn; exact hn⟩

/-- Everything display writes in a row can do. -/
theorem busWrites_spec (s : State) (ws : List (List Byte)) :
    match s.busWrites ws with
    | .ok _ s' => s' = s.afterReads (ws.map .wr)
    | .err s' => ∃ k, ∃ h : k < ws.length, s' = s.afterBus (k + 1) ((ws.take k).map .wr ++ [.wrErr ws[k]])
    | .hung => ∃ k < ws.length, s.answerAt k = .never := by
  induction ws generalizing s with
  | nil => rfl
  | cons w ws ih =>
    simp only [State.busWrites, busWrite_eq]
    cases h0 : s.answerAt 0 with
    | err => exact ⟨0, by simp, rfl⟩
    | never => exact ⟨0, by simp, h0⟩
    | ok bytes m =>
      simp only
      have h1 := ih (s.afterBus 1 [.wr w])
      cases hr : (s.afterBus 1 [.wr w]).busWrites ws with
      | ok u s2 =>
        rw [hr] at h1
        simp only at h1 ⊢
        rw [h1, afterBus_afterReads]
        rfl
      | err s2 =>
        rw [hr] at h1
        obtain ⟨k, hk, hs⟩ := h1
        refine ⟨k + 1, by simpa using hk, ?_⟩
        rw [hs, afterBus_afterBus]
        simp [Nat.add_comm]
      | hung =>
        rw [hr] at h1
        obtain ⟨j, hj, hn⟩ := h1
        exact ⟨1 + j, by simp; omega, by rw [answerAt_afterBus] at hn; exact hn⟩

/-- Block reads of which one, the first that does not succeed, never completes. -/
theorem readBlocks_hung (s : State) (xs : List Nat) (k : Nat) (hk : k < xs.length) (h : s.busOk k) (hn : s.answerAt k = .never) :
    s.readBlocks xs = .hung := by
  induction xs generalizing s k with
  | nil => exact absurd hk (Nat.not_lt_zero k)
  | cons x xs ih =>
    simp only [State.readBlocks, busReadBlock_eq]
    cases k with
    | zero => simp only [hn]
    | succ k =>
      obtain ⟨bytes, m, h0⟩ := h 0 (Nat.succ_pos k)
      simp only [h0]
      rw [ih _ k (Nat.lt_of_succ_lt_succ hk)
        (fun j hj => by rw [answerAt_afterBus]; exact h (1 + j) (by omega))
        (by rw [answerAt_afterBus, Nat.add_comm]; exact hn)]

/-- Raw reads of which one, the first that does not succeed, never completes. -/
theorem readRaws_hung (s : State) (xs : List Nat) (k : Nat) (hk : k < xs.length) (h : s.busOk k) (hn : s.answerAt k = .never) :
    s.readRaws xs = .hung := by
  induction xs generalizing s k with
  | nil => exact absurd hk (Nat.not_lt_zero k)
  | cons x xs ih =>
    simp only [State.readRaws, busReadRaw_eq]
    cases k with
    | zero => simp only [hn]
    | succ k =>
      obtain ⟨bytes, m, h0⟩ := h 0 (Nat.succ_pos k)
      simp only [h0]
      rw [ih _ k (Nat.lt_of_succ_lt_succ hk)
        (fun j hj => by rw [answerAt_afterBus]; exact h (1 + j) (by omega))
        (by rw [answerAt_afterBus, Nat.add_comm]; exact hn)]

/-- Display writes of which one, the first that does not succeed, never completes. -/
theorem busWrites_hung (s : State) (xs : List (List Byte)) (k : Nat) (hk : k < xs.length) (h : s.busOk k) (hn : s.answerAt k = .never) :
    s.busWrites xs = .hung := by
  induction xs generalizing s k with
  | nil => exact absurd hk (Nat.not_lt_zero k)
  | cons x xs ih =>
    simp only [State.busWrites, busWrite_eq]
    cases k with
    | zero => simp only [hn]
    | succ k =>
      obtain ⟨bytes, m, h0⟩ := h 0 (Nat.succ_pos k)
      simp only [h0]
      rw [ih _ k (Nat.lt_of_succ_lt_succ hk)
        (fun j hj => by rw [answerAt_afterBus]; exact h (1 + j) (by omega))
        (by rw [answerAt_afterBus, Nat.add_comm]; exact hn)]

/-- DIG_CAPACITY, summed over the sources by their numbers (R8). -/
theorem digLen_sum (c : Config) : 8 * ((List.range c.numDig).map c.digLen).sum = c.digCapacity := by
  unfold Config.digCapacity
  congr 2
  apply List.ext_getElem?
  intro t
  by_cases ht : t < c.digSources.length
  · simp [Config.numDig, ht, Config.digLen]
  · rw [List.getElem?_eq_none (by simpa [Config.numDig] using ht), List.getElem?_eq_none (by simpa using ht)]

end Sys2Proof.Machine
end

