-- ==== Sys2Proof/Laws/Cells.lean ====
section
/-! SUPPORT. What the cell writes do (42_glyph_render.md R153, R160): the cells written hold the bytes, the others and
every other field stay as they were. -/

namespace Sys2Proof.Machine

theorem cellWrite_cell (s : State) (i j : Nat) (v : Byte) (h : j < 4) :
    (s.cellWrite i v).cells[j] = if i = j then some v else s.cells[j] := by
  simp [State.cellWrite, Vector.getElem_setIfInBounds]

/-- Everything a run of cell writes can do: only the cells change. -/
theorem cellWrites_eq (s : State) (i : Nat) (vs : List Byte) :
    s.cellWrites i vs = { s with cells := (s.cellWrites i vs).cells } := by
  induction vs generalizing s i with
  | nil => rfl
  | cons v vs ih =>
    unfold State.cellWrites
    conv_lhs => rw [ih]
    rfl

/-- Cell j after the writes of `vs` from cell i on. -/
theorem cellWrites_cell (s : State) (i j : Nat) (vs : List Byte) (h : j < 4) :
    (s.cellWrites i vs).cells[j] = if i ≤ j ∧ j < i + vs.length then vs[j - i]? else s.cells[j] := by
  induction vs generalizing s i with
  | nil =>
    have : ¬(i ≤ j ∧ j < i + ([] : List Byte).length) := by simp
    rw [if_neg this]
    rfl
  | cons v vs ih =>
    unfold State.cellWrites
    rw [ih, cellWrite_cell s i j v h]
    by_cases hij : i = j
    · subst hij
      simp
    · by_cases hlt : i + 1 ≤ j ∧ j < i + 1 + vs.length
      · have : i ≤ j ∧ j < i + (v :: vs).length := by simp; omega
        rw [if_pos hlt, if_pos this]
        have hs : j - i = (j - (i + 1)) + 1 := by omega
        rw [hs, List.getElem?_cons_succ]
      · have : ¬(i ≤ j ∧ j < i + (v :: vs).length) := by simp; omega
        rw [if_neg hlt, if_neg hij, if_neg this]

/-- The cleared cells (R182). -/
theorem clearCells_cells (s : State) : s.clearCells.cells = #v[some 0x00#8, some 0x00#8, some 0x00#8, some 0x00#8] := by
  ext j hj
  have hj' : j < 4 := hj
  rw [State.clearCells, cellWrites_cell s 0 j _ hj]
  simp only [cellCount, List.length_replicate]
  interval_cases j <;> simp

/-- Clearing changes the cells and nothing else (R182). -/
theorem clearCells_eq (s : State) :
    s.clearCells = { s with cells := #v[some 0x00#8, some 0x00#8, some 0x00#8, some 0x00#8] } := by
  rw [← clearCells_cells s]
  exact cellWrites_eq s 0 _

end Sys2Proof.Machine
end

