-- ==== Sys2Proof/Laws/Exec.lean ====
section
/-! SUPPORT. Everything an instruction, a step and a run can do, said once each: the next states of each meaning, when SAMPLE
hangs, the cases of a step (60_exceptions.md R205), and the induction over a run. -/

namespace Sys2Proof.Machine

/-- How SAMPLE can end. -/
theorem execSample_cases {s t : State} (h : execSample s = .next t) :
    (∃ (es : List BusEvent) (bytes : List Byte) (raws : List Int),
      es.length = s.cfg.numDig + s.cfg.axisCount ∧ (∀ e ∈ es, e.failed = false ∧ (s.cfg.rawLo ≤ s.cfg.rawHi → eventShape s.cfg e)) ∧
        8 * bytes.length = s.cfg.digCapacity ∧ raws.length = s.cfg.axisCount ∧ (∀ n ∈ raws, ∃ m, n = shapeRaw s.cfg m) ∧
        t = ((s.afterReads es).latchSample (sampleOf s.cfg bytes raws)).complete) ∨
    ∃ (es : List BusEvent) (e : BusEvent) (c : TransientCause),
      (∀ e ∈ es, e.failed = false) ∧ e.failed = true ∧ (s.cfg.rawLo ≤ s.cfg.rawHi → ∀ e' ∈ es ++ [e], eventShape s.cfg e') ∧
        (c = .digReadError ∨ c = .adcReadError) ∧
        t = (s.afterBus (es.length + 1) (es ++ [e])).raiseTransient c := by
  have hblk : ∀ e : BusEvent, (e.failed = false ∧ ∃ k ∈ List.range s.cfg.numDig, ∃ b, e = .rdBlk k b ∧ b.length = s.cfg.digLen k) →
      eventShape s.cfg e := by
    rintro e ⟨-, k, hk, b, rfl, hb⟩
    exact ⟨List.mem_range.mp hk, hb⟩
  have hraw : s.cfg.rawLo ≤ s.cfg.rawHi → ∀ e : BusEvent,
      (e.failed = false ∧ ∃ j ∈ List.range s.cfg.axisCount, ∃ m, e = .rdRaw j (shapeRaw s.cfg m)) → eventShape s.cfg e := by
    rintro hr e ⟨-, j, hj, m, rfl⟩
    exact ⟨List.mem_range.mp hj, shapeRaw_range s.cfg m hr⟩
  have hB := readBlocks_spec s (List.range s.cfg.numDig)
  unfold execSample at h
  cases hb : s.readBlocks (List.range s.cfg.numDig) with
  | hung => rw [hb] at h; cases h
  | err s1 =>
    rw [hb] at h hB
    obtain ⟨es, k, hk, rfl, he⟩ := hB
    cases h
    refine .inr ⟨es, .rdBlkErr k, .digReadError, fun e hm => (he e hm).1, rfl, fun _ e hm => ?_, .inl rfl, rfl⟩
    rcases List.mem_append.mp hm with hm | hm
    · exact hblk e (he e hm)
    · rw [List.mem_singleton.mp hm]; exact List.mem_range.mp hk
  | ok bytes s1 =>
    rw [hb] at h hB
    obtain ⟨es, hl, rfl, hlen, he⟩ := hB
    have hcfg : (s.afterReads es).cfg = s.cfg := by unfold State.afterReads; split <;> rfl
    have hR := readRaws_spec (s.afterReads es) (List.range s.cfg.axisCount)
    simp only at h
    have hcomp : ∀ n fs, (s.afterReads es).afterBus n fs = s.afterBus (es.length + n) (es ++ fs) := fun n fs => by
      unfold State.afterReads
      split
      · next h => simp [h]
      · exact afterBus_afterBus _ _ _ _ _
    cases hr : (s.afterReads es).readRaws (List.range s.cfg.axisCount) with
    | hung => rw [hr] at h; cases h
    | err s2 =>
      rw [hr] at h hR
      obtain ⟨fs, j, hj, rfl, hf⟩ := hR
      cases h
      refine .inr ⟨es ++ fs, .rdRawErr j, .adcReadError, ?_, rfl, fun hlo e hm => ?_, .inr rfl, ?_⟩
      · intro e hm
        rcases List.mem_append.mp hm with hm | hm
        · exact (he e hm).1
        · exact (hf e hm).1
      · rcases List.mem_append.mp hm with hm | hm
        · rcases List.mem_append.mp hm with hm | hm
          · exact hblk e (he e hm)
          · have := hf e hm
            rw [hcfg] at this
            exact hraw hlo e this
        · rw [List.mem_singleton.mp hm]; exact List.mem_range.mp hj
      · rw [hcomp, List.length_append, List.append_assoc, Nat.add_assoc]
    | ok raws s2 =>
      rw [hr] at h hR
      obtain ⟨fs, hfl, rfl, hn, hm, hf⟩ := hR
      cases h
      refine .inl ⟨es ++ fs, bytes, raws, by simp at *; omega, ?_, by rw [hlen, digLen_sum], by simpa using hn, ?_, ?_⟩
      · intro e hm
        rcases List.mem_append.mp hm with hm | hm
        · exact ⟨(he e hm).1, fun _ => hblk e (he e hm)⟩
        · have := hf e hm
          rw [hcfg] at this
          exact ⟨this.1, fun hlo => hraw hlo e this⟩
      · rw [hcfg] at hm; exact hm
      · have : (s.afterReads es).afterReads fs = s.afterReads (es ++ fs) := by
          cases fs with
          | nil => simp [State.afterReads]
          | cons f fs =>
            conv_lhs => unfold State.afterReads
            simp only [reduceCtorEq, if_false]
            have := hcomp (f :: fs).length (f :: fs)
            unfold State.afterReads at *
            simp at *
            exact this
        rw [this]

/-- When SAMPLE hangs. -/
theorem execSample_fault {s : State} {f : Fault} (h : execSample s = .fault f) :
    f = .busHang ∧ ∃ k < s.cfg.numDig + s.cfg.axisCount, s.answerAt k = .never := by
  have hB := readBlocks_spec s (List.range s.cfg.numDig)
  unfold execSample at h
  cases hb : s.readBlocks (List.range s.cfg.numDig) with
  | hung =>
    rw [hb] at h hB
    obtain ⟨k, hk, hn⟩ := hB
    cases h
    exact ⟨rfl, k, by simp at hk; omega, hn⟩
  | err s1 => rw [hb] at h; cases h
  | ok bytes s1 =>
    rw [hb] at h hB
    obtain ⟨es, hl, rfl, hlen, he⟩ := hB
    have hR := readRaws_spec (s.afterReads es) (List.range s.cfg.axisCount)
    simp only at h
    cases hr : (s.afterReads es).readRaws (List.range s.cfg.axisCount) with
    | err s2 => rw [hr] at h; cases h
    | ok raws s2 => rw [hr] at h; cases h
    | hung =>
      rw [hr] at h hR
      obtain ⟨k, hk, hn⟩ := hR
      cases h
      refine ⟨rfl, es.length + k, by simp at hk hl; omega, ?_⟩
      unfold State.afterReads at hn
      split at hn
      · next h => simp only [h, List.length_nil, Nat.zero_add]; exact hn
      · rw [answerAt_afterBus] at hn; exact hn

theorem execEncode_cases {s t : State} (h : execEncode s = .next t) :
    (s.sample = none ∧ t = s.raiseFault .uninitRead) ∨
      ∃ x, s.sample = some x ∧ t = (s.writeReport (encodeReport s.cfg x)).complete := by
  unfold execEncode at h
  cases hs : s.sample with
  | none => rw [hs] at h; cases h; exact .inl ⟨rfl, rfl⟩
  | some x => rw [hs] at h; cases h; exact .inr ⟨x, rfl, rfl⟩

theorem execShouldSend_cases {force : Bool} {s t : State} (h : execShouldSend force s = .next t) :
    (s.report = none ∧ t = s.raiseFault .uninitRead) ∨
      ∃ r, s.report = some r ∧ t = (s.writeSend (sendDecision force s.cfg.reportByteCount r s.shadow)).complete := by
  unfold execShouldSend at h
  cases hs : s.report with
  | none => rw [hs] at h; cases h; exact .inl ⟨rfl, rfl⟩
  | some x => rw [hs] at h; cases h; exact .inr ⟨x, rfl, rfl⟩

theorem execCommitSent_cases {s t : State} (h : execCommitSent s = .next t) :
    (s.report = none ∧ t = s.raiseFault .uninitRead) ∨ ∃ r, s.report = some r ∧ t = (s.writeShadow r).complete := by
  unfold execCommitSent at h
  cases hs : s.report with
  | none => rw [hs] at h; cases h; exact .inl ⟨rfl, rfl⟩
  | some x => rw [hs] at h; cases h; exact .inr ⟨x, rfl, rfl⟩

theorem execRender_cases {text : List Byte} {s t : State} (h : execRender text s = .next t) :
    t = (s.cellWrites 0 (renderScan s.cfg cellCount text)).complete := by
  cases h; rfl

theorem execPutRaw_cases {len : BitVec 4} {idx val : Byte} {s t : State} (h : execPutRaw len idx val s = .next t) :
    (4 ≤ idx.toNat ∧ t = s.raiseFault .putRawRange) ∨ (idx.toNat < 4 ∧ len ≠ 1#4 ∧ t = s.raiseFault .putRawLength) ∨
      (idx.toNat < 4 ∧ len = 1#4 ∧ t = (s.cellWrite idx.toNat val).complete) := by
  unfold execPutRaw putRawFault cellCount at h
  by_cases h4 : 4 ≤ idx.toNat
  · rw [if_pos h4] at h; cases h; exact .inl ⟨h4, rfl⟩
  · rw [if_neg h4] at h
    by_cases hl : len ≠ 1#4
    · rw [if_pos hl] at h; cases h; exact .inr (.inl ⟨by omega, hl, rfl⟩)
    · rw [if_neg hl] at h; cases h; exact .inr (.inr ⟨by omega, not_not.mp hl, rfl⟩)

/-- How a single display write ends a command. -/
theorem endDisplayWrite_cases {s t : State} {bytes : List Byte} {onOk : State → State}
    (h : endDisplayWrite (s.busWrite bytes) onOk = .next t) :
    t = onOk (s.afterBus 1 [.wr bytes]) ∨ t = (s.afterBus 1 [.wrErr bytes]).raiseTransient .displayWriteError := by
  rw [busWrite_eq] at h
  cases h0 : s.answerAt 0 with
  | ok b m => rw [h0] at h; cases h; exact .inl rfl
  | err => rw [h0] at h; cases h; exact .inr rfl
  | never => rw [h0] at h; cases h

theorem cellBytes_cases (s : State) :
    (s.cellBytes = none ∧ ∃ i : Fin 4, s.cells[i] = none) ∨
      ∃ a b c d, s.cellBytes = some [a, b, c, d] ∧ s.cells = #v[some a, some b, some c, some d] := by
  unfold State.cellBytes
  cases h0 : s.cells[0] with
  | none => exact .inl ⟨by simp, 0, h0⟩
  | some a =>
  cases h1 : s.cells[1] with
  | none => exact .inl ⟨by simp, 1, h1⟩
  | some b =>
  cases h2 : s.cells[2] with
  | none => exact .inl ⟨by simp, 2, h2⟩
  | some c =>
  cases h3 : s.cells[3] with
  | none => exact .inl ⟨by simp, 3, h3⟩
  | some d =>
    refine .inr ⟨a, b, c, d, rfl, ?_⟩
    ext i hi
    have : i = 0 ∨ i = 1 ∨ i = 2 ∨ i = 3 := by omega
    rcases this with rfl | rfl | rfl | rfl <;> simp [*]

theorem execShowFb_cases {s t : State} (h : execShowFb s = .next t) :
    ((∃ i : Fin 4, s.cells[i] = none) ∧ t = s.raiseFault .uninitRead) ∨
      ∃ a b c d, s.cells = #v[some a, some b, some c, some d] ∧
        (t = (s.afterBus 1 [.wr [s.cfg.fbCmd, a, b, c, d]]).complete ∨
          t = (s.afterBus 1 [.wrErr [s.cfg.fbCmd, a, b, c, d]]).raiseTransient .displayWriteError) := by
  unfold execShowFb at h
  rcases cellBytes_cases s with ⟨hn, hi⟩ | ⟨a, b, c, d, hn, hi⟩
  · rw [hn] at h; cases h; exact .inl ⟨hi, rfl⟩
  · rw [hn] at h; exact .inr ⟨a, b, c, d, hi, endDisplayWrite_cases h⟩

theorem execClear_cases {force : Bool} {s t : State} (h : execClear force s = .next t) :
    t = s.clearCells.complete ∨ t = (s.clearCells.afterBus 1 [.wr (blankFramebuffer s.cfg)]).complete ∨
      t = (s.clearCells.afterBus 1 [.wrErr (blankFramebuffer s.cfg)]).raiseTransient .displayWriteError := by
  unfold execClear at h
  split at h
  · exact .inr (endDisplayWrite_cases h)
  · cases h; exact .inl rfl

theorem execInitDisplay_cases {s t : State} (h : execInitDisplay s = .next t) :
    t = (s.clearCells.afterBus 3 [.wr (blankFramebuffer s.cfg), .wr s.cfg.cmdOscOn, .wr s.cfg.cmdDisplayOn]).complete ∨
      ∃ k, ∃ h : k < 3, t = (s.clearCells.afterBus (k + 1)
        (([blankFramebuffer s.cfg, s.cfg.cmdOscOn, s.cfg.cmdDisplayOn].take k).map .wr ++
          [.wrErr ([blankFramebuffer s.cfg, s.cfg.cmdOscOn, s.cfg.cmdDisplayOn][k])])).raiseTransient .displayWriteError := by
  unfold execInitDisplay at h
  have hW := busWrites_spec s.clearCells [blankFramebuffer s.cfg, s.cfg.cmdOscOn, s.cfg.cmdDisplayOn]
  cases hw : s.clearCells.busWrites [blankFramebuffer s.cfg, s.cfg.cmdOscOn, s.cfg.cmdDisplayOn] with
  | ok u s1 => rw [hw] at h hW; simp only at hW; cases h; exact .inl (by rw [hW]; rfl)
  | err s1 =>
    rw [hw] at h hW
    obtain ⟨k, hk, rfl⟩ := hW
    cases h
    exact .inr ⟨k, hk, rfl⟩
  | hung => rw [hw] at h; cases h

theorem execSetBlink_cases {mode : Byte} {s t : State} (h : execSetBlink mode s = .next t) :
    (3 < mode.toNat ∧ t = s.raiseFault .configBlink) ∨
      (mode.toNat ≤ 3 ∧
        (t = ((s.afterBus 1 [.wr (s.cfg.blinkCommand (mode.extractLsb' 0 2))]).writeBlinkMode (mode.extractLsb' 0 2)).complete ∨
          t = (s.afterBus 1 [.wrErr (s.cfg.blinkCommand (mode.extractLsb' 0 2))]).raiseTransient .displayWriteError)) := by
  unfold execSetBlink blinkOperand at h
  by_cases h3 : 3 < mode.toNat
  · rw [if_pos h3] at h; cases h; exact .inl ⟨h3, rfl⟩
  · rw [if_neg h3] at h; exact .inr ⟨by omega, endDisplayWrite_cases h⟩

/-- No instruction changes the configuration record. -/
theorem exec_cfg {i : Instr} {s t : State} (h : exec i s = .next t) : t.cfg = s.cfg := by
  cases i with
  | sample => rcases execSample_cases h with ⟨es, b, r, _, _, _, _, _, rfl⟩ | ⟨es, e, c, _, _, _, _, rfl⟩ <;> simp
  | encode => rcases execEncode_cases h with ⟨_, rfl⟩ | ⟨x, _, rfl⟩ <;> simp
  | shouldSend => rcases execShouldSend_cases h with ⟨_, rfl⟩ | ⟨x, _, rfl⟩ <;> simp
  | commitSent => rcases execCommitSent_cases h with ⟨_, rfl⟩ | ⟨x, _, rfl⟩ <;> simp
  | render => have := execRender_cases h; rw [cellWrites_eq] at this; subst this; simp
  | putRaw => rcases execPutRaw_cases h with ⟨_, rfl⟩ | ⟨_, _, rfl⟩ | ⟨_, _, rfl⟩ <;> simp
  | clear => rcases execClear_cases h with rfl | rfl | rfl <;> simp [clearCells_eq]
  | showFb => rcases execShowFb_cases h with ⟨_, rfl⟩ | ⟨a, b, c, d, _, rfl | rfl⟩ <;> simp
  | initDisplay => rcases execInitDisplay_cases h with rfl | ⟨k, _, rfl⟩ <;> simp [clearCells_eq]
  | setBlink => rcases execSetBlink_cases h with ⟨_, rfl⟩ | ⟨_, rfl | rfl⟩ <;> simp

/-- The cases of a step. -/
theorem step_cases {s t : State} (h : step s = .next t) :
    (s.commands = [] ∧ t = s) ∨ (s.result = .faulted ∧ t = s.takeCommand) ∨
    (s.usable ∧ ∃ c rest, s.commands = c :: rest ∧ decode c = none ∧ t = s.takeCommand.raiseFault .illegalCommand) ∨
    (s.usable ∧ ∃ c rest i, s.commands = c :: rest ∧ decode c = some i ∧ exec i s.takeCommand = .next t) := by
  unfold step State.issueNext at h
  cases hc : s.commands with
  | nil => rw [hc] at h; cases h; exact .inl ⟨rfl, rfl⟩
  | cons c rest =>
    simp only [hc] at h
    by_cases hf : s.result = .faulted
    · rw [if_pos hf] at h; cases h; exact .inr (.inl ⟨hf, rfl⟩)
    · rw [if_neg hf] at h
      cases hd : decode c with
      | none => rw [hd] at h; cases h; exact .inr (.inr (.inl ⟨hf, c, rest, rfl, hd, rfl⟩))
      | some i => rw [hd] at h; exact .inr (.inr (.inr ⟨hf, c, rest, i, rfl, hd, h⟩))

/-- A reflexive and transitive relation that holds of each step holds of each run. -/
theorem run_induction (P : State → State → Prop) (refl : ∀ s, P s s) (trans : ∀ s t u, P s t → P t u → P s u)
    (hstep : ∀ s t, step s = .next t → P s t) : ∀ n s t, Sys2Proof.core.run n s = .next t → P s t := by
  intro n
  induction n with
  | zero => intro s t h; cases h; exact refl _
  | succ n ih =>
    intro s t h
    unfold Host.Core.run at h
    cases hs : Sys2Proof.core.step s with
    | next u => rw [hs] at h; exact trans s u t (hstep s u hs) (ih u t h)
    | fault f => rw [hs] at h; cases h
    | refused r => rw [hs] at h; cases h

end Sys2Proof.Machine
end

