-- ==== Sys2Proof/Laws/Fields.lean ====
section
/-! SUPPORT. The bits of a field laid into a word, and what the decoder's field readers read (30_encoding.md R70 to R75). -/

namespace Sys2Proof

/-- A field's bits stand from its position on; every other bit is 0. -/
@[simp] theorem getLsbD_fieldAt {n : Nat} (pos : Nat) (v : BitVec n) (i : Nat) :
    (fieldAt pos v).getLsbD i = (decide (i < 32) && !decide (i < pos) && v.getLsbD (i - pos)) := by
  simp only [fieldAt, BitVec.getLsbD_shiftLeft, BitVec.getLsbD_setWidth]
  by_cases h : i < 32
  · have : i - pos < 32 := by omega
    simp [h, this]
  · simp [h]

end Sys2Proof
end

