-- ==== Sys2Proof/Laws/PerInstr.lean ====
section
/-! SUPPORT. Per instruction: its word lies in its own row of the opcode table (30_encoding.md R82). -/

namespace Sys2Proof.Laws.EncodesItsRow

/-- The row of the opcode table that bears the instruction's mnemonic matches its command word, and no other does. -/
def Statement (i : Instr) : Prop :=
  ∀ r ∈ opcodeTable, (r.matchesWord (encodeWord i) = true ↔ r.mnemonic = i.mnemonic)

/-- A word in a row has the row's OP, because every mask keeps OP whole. -/
theorem op_of_match (r : OpcodeRow) (w : CmdWord) (h : r.matchesWord w = true) :
    opField w &&& r.mask.extractLsb' 28 4 = r.matchBits.extractLsb' 28 4 := by
  have h' : w &&& r.mask = r.matchBits := by simpa [OpcodeRow.matchesWord] using h
  rw [← h', opField, BitVec.extractLsb'_and]

/-- A word whose OP is not the row's lies not in the row. -/
theorem no_match (r : OpcodeRow) (w : CmdWord) (op : BitVec 4) (hop : opField w = op)
    (hne : op &&& r.mask.extractLsb' 28 4 ≠ r.matchBits.extractLsb' 28 4) : r.matchesWord w = false := by
  by_contra h
  exact hne (hop ▸ op_of_match r w (by simpa using h))

/-- The statement for a word of a known OP, from its own row's match. -/
theorem statement_of_op (i : Instr) (op : BitVec 4) (hop : opField (encodeWord i) = op)
    (hrow : ∀ r ∈ opcodeTable, r.mnemonic = i.mnemonic → r.matchesWord (encodeWord i) = true)
    (hne : ∀ r ∈ opcodeTable, r.mnemonic ≠ i.mnemonic → op &&& r.mask.extractLsb' 28 4 ≠ r.matchBits.extractLsb' 28 4) :
    Statement i := fun r hr =>
  ⟨fun h => by
    by_contra hm
    exact absurd h (by rw [no_match r _ op hop (hne r hr hm)]; simp), hrow r hr⟩

theorem opField_wordP (op len : BitVec 4) (idx val : Byte) : opField (wordP op len idx val) = op := by
  ext i hi
  interval_cases i <;> simp [opField, wordP, fieldAt]

theorem opField_wordM (op : BitVec 4) (mode : Byte) : opField (wordM op mode) = op := by
  ext i hi
  interval_cases i <;> simp [opField, wordM, fieldAt]

/-- A format P word with OP 0x6 is in PUT_RAW's row: its reserved byte is 0. -/
theorem wordP_row (len : BitVec 4) (idx val : Byte) : wordP 0x6#4 len idx val &&& 0xF000FF00#32 = 0x60000000#32 := by
  ext i hi
  interval_cases i <;> simp [wordP, fieldAt]

/-- A format M word with OP 0xA is in SET_BLINK's row. -/
theorem wordM_row (mode : Byte) : wordM 0xA#4 mode &&& 0xFFFFFF00#32 = 0xA0000000#32 := by
  ext i hi
  interval_cases i <;> simp [wordM, fieldAt]

theorem sample : Statement .sample := by unfold Statement; decide

theorem encode : Statement .encode := by unfold Statement; decide

theorem shouldSend (force : Bool) : Statement (.shouldSend force) := by
  unfold Statement
  cases force <;> decide

theorem commitSent : Statement .commitSent := by unfold Statement; decide

theorem render (text : List Byte) : Statement (.render text) :=
  show ∀ r ∈ opcodeTable, (r.matchesWord 0x50000000#32 = true ↔ r.mnemonic = "RENDER") by decide

theorem putRaw (len : BitVec 4) (idx val : Byte) : Statement (.putRaw len idx val) := by
  refine statement_of_op _ 0x6#4 (opField_wordP _ _ _ _) ?_
    (show ∀ r ∈ opcodeTable, r.mnemonic ≠ "PUT_RAW" → _ by decide)
  intro r hr hm
  have hr' : r = ⟨"PUT_RAW", 0x60000000#32, 0xF000FF00#32⟩ :=
    (show ∀ r ∈ opcodeTable, r.mnemonic = "PUT_RAW" → r = ⟨"PUT_RAW", 0x60000000#32, 0xF000FF00#32⟩ by decide) r hr hm
  subst hr'
  exact beq_iff_eq.mpr (wordP_row len idx val)

theorem clear (force : Bool) : Statement (.clear force) := by
  unfold Statement
  cases force <;> decide

theorem showFb : Statement .showFb := by unfold Statement; decide

theorem initDisplay : Statement .initDisplay := by unfold Statement; decide

theorem setBlink (mode : Byte) : Statement (.setBlink mode) := by
  refine statement_of_op _ 0xA#4 (opField_wordM _ _) ?_
    (show ∀ r ∈ opcodeTable, r.mnemonic ≠ "SET_BLINK" → _ by decide)
  intro r hr hm
  have hr' : r = ⟨"SET_BLINK", 0xA0000000#32, 0xFFFFFF00#32⟩ :=
    (show ∀ r ∈ opcodeTable, r.mnemonic = "SET_BLINK" → r = ⟨"SET_BLINK", 0xA0000000#32, 0xFFFFFF00#32⟩ by decide) r hr hm
  subst hr'
  exact beq_iff_eq.mpr (wordM_row mode)

end Sys2Proof.Laws.EncodesItsRow
end

