-- ==== Sys2Proof/Tests/Slice0.lean ====
section
/-! SUPPORT. Tests, each one step or one operation on a small state. Expected results come from 95_test_vectors.md (the
vector's id stands in the docstring) or from hand evaluation of the rule named. Last, for each obligation with hypotheses,
a witness that meets them. -/

set_option Elab.async false

namespace Sys2Proof.Tests

open Sys2Proof Sys2Proof.Machine

/-! ### Helpers -/

/-- The next state of an outcome. -/
def nextOf : Host.Outcome State Fault Refusal → Option State
  | .next s => some s
  | .fault _ => none
  | .refused _ => none

/-- CFG-A after reset, with the bus answers given. -/
def fresh (answers : List BusAnswer) : State := { State.reset with busAnswers := answers }

/-- A digital source's answer. -/
def block (bytes : List Byte) : BusAnswer := .ok bytes 0

/-- An analog source's answer. -/
def raw (n : Int) : BusAnswer := .ok [] n

/-- The display driver's answer to a write. -/
def ack : BusAnswer := .ok [] 0

/-- V-B1's sample: buttons 1,0,1,0,0,0,0,0,1,1 and axis 1.0. -/
def sampleB1 : Sample :=
  { btn := [true, false, true, false, false, false, false, false, true, true], axis := [0x3FF0000000000000#64] }

/-- CFG-A with V-B1's sample latched, REPORT and SHADOW as given. -/
def withReport (report shadow : Option (List Byte)) : State :=
  { State.reset with sample := some sampleB1, report := report, shadow := shadow }

/-- CFG-A with the cells given, and the bus answers given. -/
def withCells (a b c d : Byte) (answers : List BusAnswer) : State :=
  { State.reset with cells := #v[some a, some b, some c, some d], busAnswers := answers }

/-- A state's status word after a command, 0xFFFFFFFF where there is no next state. -/
def statusAfter (o : Host.Outcome State Fault Refusal) : BitVec 32 := ((nextOf o).map State.statusWord).getD 0xFFFFFFFF#32

/-! ### Well-formedness: each check refuses an ill-formed term -/

/-- R76: a text with a command that takes none. -/
theorem test_text_without_render_is_refused : Command.wellFormed { word := 0x10000000#32, text := [0x41#8] } = false := by
  decide

theorem test_text_with_render_is_accepted : Command.wellFormed { word := 0x50000000#32, text := [0x41#8] } = true := by
  decide

/-- R74: X = 4, and L = 2, are outside the legal ranges. -/
theorem test_illegal_put_raw_operands_are_refused :
    Instr.legalOperands (.putRaw 1#4 4#8 0#8) = false ∧ Instr.legalOperands (.putRaw 2#4 3#8 0#8) = false ∧
      Instr.legalOperands (.putRaw 1#4 3#8 0#8) = true := by decide

/-- R75: M = 4 is outside the legal range. -/
theorem test_illegal_blink_mode_is_refused :
    Instr.legalOperands (.setBlink 4#8) = false ∧ Instr.legalOperands (.setBlink 3#8) = true := by decide

/-! ### Decoding: words written out from R71 to R75 -/

theorem test_decode_sample : decode { word := 0b0001_0000000000000000000000000000#32 } = some .sample := by decide

theorem test_decode_encode : decode { word := 0b0010_0000000000000000000000000000#32 } = some .encode := by decide

theorem test_decode_should_send :
    decode { word := 0b0011_000000000000000000000000000_0#32 } = some (.shouldSend false) ∧
      decode { word := 0b0011_000000000000000000000000000_1#32 } = some (.shouldSend true) := by decide

theorem test_decode_commit_sent : decode { word := 0b0100_0000000000000000000000000000#32 } = some .commitSent := by
  decide

theorem test_decode_render :
    decode { word := 0b0101_0000000000000000000000000000#32, text := [0x41#8] } = some (.render [0x41#8]) := by decide

/-- L = 0001, X = 00000010, V = 10000001. -/
theorem test_decode_put_raw :
    decode { word := 0b0110_0001_00000010_00000000_10000001#32 } = some (.putRaw 1#4 2#8 0x81#8) := by decide

theorem test_decode_clear :
    decode { word := 0b0111_000000000000000000000000000_0#32 } = some (.clear false) ∧
      decode { word := 0b0111_000000000000000000000000000_1#32 } = some (.clear true) := by decide

theorem test_decode_show : decode { word := 0b1000_0000000000000000000000000000#32 } = some .showFb := by decide

theorem test_decode_init : decode { word := 0b1001_0000000000000000000000000000#32 } = some .initDisplay := by decide

/-- M = 00000101. -/
theorem test_decode_set_blink :
    decode { word := 0b1010_00000000000000000000_00000101#32 } = some (.setBlink 5#8) := by decide

/-- V-D1 to V-D5, V-D7, V-D8, V-D10: illegal words. -/
theorem test_decode_illegal :
    ([0x00000000#32, 0xB0000000#32, 0xF0000000#32, 0x10000001#32, 0x30000002#32, 0x61000100#32, 0xA0000100#32,
      0x7FFFFFFE#32].map fun w => decode { word := w }) = List.replicate 8 none := by decide

/-! ### Reset (R204, R42) -/

/-- V-C1, V-C11, V-C12. -/
theorem test_reset_reference :
    State.reset.statusWord = 0x00000000#32 ∧ hostRead State.reset 0x0001#16 = some 0x0003010A#64 ∧
      hostRead State.reset 0x3000#16 = none := by decide +kernel

/-- V-C2, V-C4, V-C7, V-C9. -/
theorem test_reset_rejects :
    (State.resetWith { Config.reference with buttonCount := 17 }).statusWord = 0x00000012#32 ∧
      (State.resetWith { Config.reference with buttonCount := 0 }).statusWord = 0x00000032#32 ∧
      (State.resetWith { Config.reference with axes := [⟨1, 100, 100⟩] }).statusWord = 0x00000022#32 ∧
      (State.resetWith { Config.reference with glyph := [(0x30#8, 0xBF#8)] }).statusWord = 0x00000032#32 := by
  decide +kernel

/-! ### SAMPLE -/

/-- V-B1. -/
theorem test_sample_latches :
    (nextOf (exec .sample (fresh [block [0x05#8, 0xFF#8], raw 65535]))).map State.sample = some (some sampleB1) := by
  decide +kernel

/-- V-B6: the analog read fails after the digital one; the latch keeps V-B1's sample. -/
theorem test_sample_analog_failure :
    (nextOf (exec .sample { fresh [block [0x00#8, 0x00#8], .err] with sample := some sampleB1 })).map
        (fun s => (s.sample, s.statusWord, s.busLog)) =
      some (some sampleB1, 0x00004201#32, [.rdBlk 0 [0x00#8, 0x00#8], .rdRawErr 0]) := by decide +kernel

/-! ### ENCODE -/

/-- V-E1. -/
theorem test_encode_report :
    (nextOf (exec .encode (withReport none none))).map State.report = some (some [0x05#8, 0x03#8, 0x7F#8]) := by
  decide +kernel

/-- V-E4: both axes out of calibration, both bytes wrap. -/
theorem test_encode_wraps :
    encodeReport { Config.reference with buttonCount := 1 }
        { btn := [true], axis := [0xBFF0000000000000#64, 0x4000000000000000#64] } = [0x01#8, 0x81#8, 0x7E#8] := by
  decide +kernel

/-- V-A9, V-A13, V-A14, V-A15: ties to even, and the wraps that flip the sign. -/
theorem test_axis_transform_ties_and_wraps :
    axisByte (norm ⟨0, 0, 510⟩ 1) = 0x80#8 ∧ axisByte (norm ⟨0, 1000, 2000⟩ 2002) = 0x80#8 ∧
      axisByte (norm ⟨0, 1000, 2000⟩ 998) = 0x7F#8 ∧ axisByte (norm ⟨0, 0, 510⟩ 511) = 0x80#8 := by decide +kernel

/-! ### SHOULD_SEND -/

/-- V-S2 and V-S3: an equal report is suppressed, one bit of difference is sent. -/
theorem test_should_send_compares :
    (nextOf (exec (.shouldSend false) (withReport (some [5#8, 3#8, 0x7F#8]) (some [5#8, 3#8, 0x7F#8])))).map State.send =
        some false ∧
      (nextOf (exec (.shouldSend false) (withReport (some [5#8, 3#8, 0x7E#8]) (some [5#8, 3#8, 0x7F#8])))).map State.send =
        some true := by decide +kernel

/-- V-S5: a forced call faults too while REPORT is unwritten. -/
theorem test_should_send_unwritten : statusAfter (exec (.shouldSend true) (fresh [])) = 0x00000082#32 := by
  decide +kernel

/-! ### COMMIT_SENT -/

/-- V-S7. -/
theorem test_commit_copies :
    (nextOf (exec .commitSent (withReport (some [5#8, 3#8, 0x7F#8]) none))).map State.shadow =
      some (some [5#8, 3#8, 0x7F#8]) := by decide +kernel

/-- V-S6. -/
theorem test_commit_unwritten : statusAfter (exec .commitSent (fresh [])) = 0x00000082#32 := by decide +kernel

/-! ### RENDER -/

/-- V-R2: "12.3" over [0, 0, 0, 0x39]: the merge, and the retained fourth cell. -/
theorem test_render_merges_and_retains :
    (nextOf (exec (.render [0x31#8, 0x32#8, 0x2E#8, 0x33#8]) (withCells 0#8 0#8 0#8 0x39#8 []))).map State.cells =
      some #v[some 0x06#8, some 0xDB#8, some 0x4F#8, some 0x39#8] := by decide +kernel

/-- V-R6, V-R8, V-R9: "8..", "1234." and "12345.". -/
theorem test_render_points :
    renderScan Config.reference 4 [0x38#8, 0x2E#8, 0x2E#8] = [0xFF#8, 0x80#8] ∧
      renderScan Config.reference 4 [0x31#8, 0x32#8, 0x33#8, 0x34#8, 0x2E#8] = [0x06#8, 0x5B#8, 0x4F#8, 0xE6#8] ∧
      renderScan Config.reference 4 [0x31#8, 0x32#8, 0x33#8, 0x34#8, 0x35#8, 0x2E#8] =
        [0x06#8, 0x5B#8, 0x4F#8, 0x66#8] := by decide +kernel

/-! ### PUT_RAW -/

/-- V-P2. -/
theorem test_put_raw_writes :
    (nextOf (exec (.putRaw 1#4 3#8 0xFF#8) (withCells 0#8 0#8 0#8 0#8 []))).map State.cells =
      some #v[some 0#8, some 0#8, some 0#8, some 0xFF#8] := by decide +kernel

/-- V-P3, V-P4, V-P6: range, length, and both (the index first). -/
theorem test_put_raw_faults :
    statusAfter (exec (.putRaw 1#4 4#8 0x80#8) (fresh [])) = 0x00000052#32 ∧
      statusAfter (exec (.putRaw 2#4 0#8 0x11#8) (fresh [])) = 0x00000062#32 ∧
      statusAfter (exec (.putRaw 2#4 5#8 0x11#8) (fresh [])) = 0x00000052#32 := by decide +kernel

/-! ### SHOW -/

/-- V-T7. -/
theorem test_show_pushes :
    (nextOf (exec .showFb (withCells 0xFF#8 0x6D#8 0x63#8 0x39#8 [ack]))).map State.busLog =
      some [.wr [0x00#8, 0xFF#8, 0x6D#8, 0x63#8, 0x39#8]] := by decide +kernel

/-- V-T1. -/
theorem test_show_unwritten : statusAfter (exec .showFb (fresh [])) = 0x00000082#32 := by decide +kernel

/-! ### CLEAR -/

/-- V-T2: no push under AUTO_WRITE = 0. -/
theorem test_clear_does_not_push :
    (nextOf (exec (.clear false) (fresh []))).map (fun s => (s.cells, s.busLog)) = some (blankCells, []) := by
  decide +kernel

/-- V-T4: AUTO_WRITE = 1 pushes. -/
theorem test_clear_auto_write :
    (nextOf (exec (.clear false) { fresh [ack] with cfg := { Config.reference with autoWrite := true } })).map
      State.busLog = some [.wr [0x00#8, 0#8, 0#8, 0#8, 0#8]] := by decide +kernel

/-! ### INITIALIZE -/

/-- V-T5. -/
theorem test_init_three_writes :
    (nextOf (exec .initDisplay (fresh [ack, ack, ack]))).map (fun s => (s.busLog, s.statusWord)) =
      some ([.wr [0x00#8, 0#8, 0#8, 0#8, 0#8], .wr [0x21#8], .wr [0x81#8]], 0x001E0000#32) := by decide +kernel

/-- V-T6: the second write fails. -/
theorem test_init_second_write_fails :
    (nextOf (exec .initDisplay (fresh [ack, .err]))).map (fun s => (s.busLog, s.statusWord)) =
      some ([.wr [0x00#8, 0#8, 0#8, 0#8, 0#8], .wrErr [0x21#8]], 0x001E0301#32) := by decide +kernel

/-! ### SET_BLINK -/

/-- V-T8. -/
theorem test_set_blink_latches :
    (nextOf (exec (.setBlink 3#8) (fresh [ack]))).map (fun s => (s.blinkMode, s.busLog)) =
      some (some 3#2, [.wr [0x87#8]]) := by decide +kernel

/-- V-T9 and V-T10: a failed write leaves the mode; M = 4 faults. -/
theorem test_set_blink_errors :
    (nextOf (exec (.setBlink 1#8) { fresh [.err] with blinkMode := some 3#2 })).map (fun s => (s.blinkMode, s.busLog)) =
        some (some 3#2, [.wrErr [0x83#8]]) ∧
      statusAfter (exec (.setBlink 4#8) (fresh [])) = 0x00000042#32 := by decide +kernel

/-! ### The step -/

/-- V-D1, V-F2: an illegal word faults a usable block and is refused by a faulted one. -/
theorem test_step_illegal_and_refused :
    statusAfter (step ((fresh []).withNextCommand { word := 0#32 })) = 0x00000092#32 ∧
      statusAfter (step ({ fresh [] with result := .faulted, faultCause := .putRawRange }.withNextCommand
        { word := 0#32 })) = 0x00000052#32 := by decide +kernel

/-- A fetched word runs as the first command after reset. -/
theorem test_step_runs_fetched_word :
    (nextOf (step (State.reset.withFetchWord 32 0x61020080))).map State.cells =
      some #v[none, none, some 0x80#8, none] := by decide +kernel

/-- R56: an answer that never comes leaves the command unfinished. -/
theorem test_hang_has_no_next_state : nextOf (exec .sample (fresh [.never])) = none := by decide +kernel

/-! ### The host's tools -/

/-- R80's syntax. -/
theorem test_assemble :
    assemble ['P', 'U', 'T', '_', 'R', 'A', 'W', ' ', '2', ',', ' ', '0', 'x', '8', '0'] =
        some { word := 0x61020080#32 } ∧
      assemble ['S', 'E', 'T', '_', 'B', 'L', 'I', 'N', 'K', ' ', '2', '5', '6'] = none := by decide +kernel

/-- R81: SHOW_TEXT. -/
theorem test_show_text_expands :
    (Pseudo.showText [0x41#8]).expand = [.clear false, .render [0x41#8], .showFb] := by decide

/-! ### Witnesses: the hypotheses of each obligation can be met -/

/-- The reference configuration passes the check, so reset is usable. -/
theorem witness_usable : State.reset.usable ∧ State.reset.cfg.check = .none := by
  decide +kernel

theorem witness_EncodeOfDecodeIsTheCommand :
    Command.wellFormed { word := 0x50000000#32, text := [0x41#8] } = true ∧
      decode { word := 0x50000000#32, text := [0x41#8] } = some (.render [0x41#8]) := by decide

theorem witness_OpcodeTableDrivesDecoder :
    decode { word := 0x30000001#32 } = some (.shouldSend true) ∧ decode { word := 0x30000002#32 } = none := by decide

/-- Illegal words at the edges of each clause of R78 (OP 0x0, 0xB and 0xF, and the lowest reserved bit of each format),
and legal ones. -/
theorem witness_IllegalWordFaults :
    (∀ w ∈ [0x00000000#32, 0xB0000000#32, 0xFFFFFFFF#32, 0x10000001#32, 0x30000002#32, 0x60000100#32, 0xA0000100#32],
      illegalWord w) ∧
      ∀ w ∈ [0xA00000FF#32, 0x10000000#32, 0x30000001#32, 0x6FFF00FF#32], ¬illegalWord w := by
  simp [illegalWord, wordOp, wordArea]

theorem witness_StepRunsTheDecodedCommand :
    ({ State.reset with commands := [{ word := 0x80000000#32 }] } : State).commands = { word := 0x80000000#32 } :: [] ∧
      decode { word := 0x80000000#32 } = some .showFb ∧ State.reset.commands = [] := by decide +kernel

/-- A FAULTED state with a command waiting, a run of it that has an end, and an admitted record. -/
theorem witness_FaultedBlockRefusesCommands :
    let s : State := { State.reset with result := .faulted, faultCause := .configBlink, commands := [{ word := 0#32 }] }
    s.result = .faulted ∧ s.commands = { word := 0#32 } :: [] ∧
      Sys2Proof.core.run 1 s = .next { s with commands := [] } ∧ Config.reference.check = .none :=
  ⟨rfl, rfl, rfl, by decide +kernel⟩

/-- Every answer SAMPLE uses under CFG-A comes; and a SAMPLE that hangs. -/
theorem witness_OnlyAHangStopsACommand :
    maxTransactions (fresh [.err, ack]).cfg .sample = 2 ∧ (fresh [.err, ack]).answerAt 0 ≠ .never ∧
      (fresh [.err, ack]).answerAt 1 ≠ .never ∧ exec .sample (fresh [.never]) = .fault .busHang :=
  ⟨rfl, by decide +kernel, by decide +kernel, rfl⟩

/-- SAMPLE's first and last transfer, INITIALIZE's first and last, CLEAR by AUTO_WRITE and by force, the bounds of
SET_BLINK's modes, and SHOW with every cell written. -/
theorem witness_HangLeavesTheCommandUnfinished :
    (fresh [.never]).usable ∧ (fresh [.never]).cfg.numDig + (fresh [.never]).cfg.axisCount = 2 ∧
      ((fresh [.never]).busOk 0 ∧ (fresh [.never]).answerAt 0 = .never) ∧
      ((fresh [ack, .never]).busOk 1 ∧ (fresh [ack, .never]).answerAt 1 = .never) ∧
      ((fresh [ack, ack, .never]).busOk 2 ∧ (fresh [ack, ack, .never]).answerAt 2 = .never) ∧
      ({ Config.reference with autoWrite := true } : Config).autoWrite = true ∧
      (0#8 : Byte).toNat ≤ 3 ∧ (3#8 : Byte).toNat ≤ 3 ∧
      (withCells 0#8 0#8 0#8 0#8 [.never]).answerAt 0 = .never ∧
      ∀ i : Fin 4, (withCells 0#8 0#8 0#8 0#8 [.never]).cells[i] ≠ none := by
  refine ⟨by decide +kernel, rfl, ⟨fun k hk => absurd hk (Nat.not_lt_zero k), rfl⟩, ⟨fun k hk => ?_, rfl⟩,
    ⟨fun k hk => ?_, rfl⟩, rfl, by decide, by decide, rfl, by decide +kernel⟩
  · match k, hk with
    | 0, _ => exact ⟨[], 0, rfl⟩
  · match k, hk with
    | 0, _ => exact ⟨[], 0, rfl⟩
    | 1, _ => exact ⟨[], 0, rfl⟩

theorem witness_SampleLatchesTheTruncatedStream :
    (fresh [block [0x05#8, 0xFF#8], raw 65535]).usable ∧ (fresh [block [0x05#8, 0xFF#8], raw 65535]).cfg.check = .none ∧
      (fresh [block [0x05#8, 0xFF#8], raw 65535]).busOk 2 := by
  refine ⟨by decide +kernel, by decide +kernel, fun k hk => ?_⟩
  match k, hk with
  | 0, _ => exact ⟨[0x05#8, 0xFF#8], 0, rfl⟩
  | 1, _ => exact ⟨[], 65535, rfl⟩

/-- A failing digital source (the first and only one) and a failing analog one. -/
theorem witness_SampleStopsAtTheFirstFailure :
    (fresh [.err]).busOk 0 ∧ (fresh [.err]).answerAt 0 = .err ∧ (fresh [.err]).cfg.numDig = 1 ∧
      (fresh [block [], .err]).busOk 1 ∧ (fresh [block [], .err]).answerAt 1 = .err ∧
      (fresh [block [], .err]).cfg.axisCount = 1 := by
  refine ⟨fun k hk => absurd hk (Nat.not_lt_zero k), rfl, rfl, fun k hk => ?_, rfl, rfl⟩
  match k, hk with
  | 0, _ => exact ⟨[], 0, rfl⟩

/-- The widest quotient R7 admits, and the narrowest divisor. -/
theorem witness_NormRoundsTheExactQuotientOnce :
    fitsS32 2147483647 ∧ fitsS32 (-2147483648) ∧ fitsS32 (-2147483647) ∧ (-2147483648 : Int) < -2147483647 := by
  decide

theorem witness_EncodeAfterFailedSampleUsesTheOlderSample :
    let s : State := { withReport none none with busAnswers := [.err] }
    (∃ u, exec .encode s = .next u ∧ u.usable) ∧ ∃ t, exec .sample s = .next t ∧ t.result = .transient :=
  ⟨⟨_, rfl, by decide⟩, ⟨_, rfl, rfl⟩⟩

theorem witness_EncodePacksButtonsThenAxes :
    (withReport none none).usable ∧ (withReport none none).sample = some sampleB1 ∧
      sampleB1.btn.length = (withReport none none).cfg.buttonCount ∧
      sampleB1.axis.length = (withReport none none).cfg.axisCount ∧ (withReport none none).cfg.buttonByteCount = 2 := by
  decide +kernel

theorem witness_EncodeDependsOnTheSampleAlone :
    (withReport none none).sample = some sampleB1 ∧ (withReport (some [1#8]) none).sample = some sampleB1 ∧
      (∃ s', exec .encode (withReport none none) = .next s') ∧
      ∃ t', exec .encode (withReport (some [1#8]) none) = .next t' := ⟨rfl, rfl, ⟨_, rfl⟩, ⟨_, rfl⟩⟩

/-- The largest and the least value a SAMPLE can meet in calibration, and one below 0. -/
theorem witness_AxisByteRoundsTwiceAndWraps :
    b64Finite 0xBFF0000000000000#64 = true ∧ (b64Value 0xBFF0000000000000#64).natAbs ≤ 2 ^ 33 * b64Unit := by
  decide +kernel

theorem witness_AxisByteInCalibrationNeverWraps :
    b64Finite 0x3FF0000000000000#64 = true ∧ 0 ≤ b64Value 0x3FF0000000000000#64 ∧
      b64Value 0x3FF0000000000000#64 ≤ b64Unit ∧ b64Finite 0#64 = true ∧ b64Value 0#64 = 0 := by decide +kernel

theorem witness_ShouldSendComparesWithTheCommitted :
    (withReport (some [5#8, 3#8, 0x7F#8]) (some [5#8, 3#8, 0x7E#8])).usable ∧
      (withReport (some [5#8, 3#8, 0x7F#8]) (some [5#8, 3#8, 0x7E#8])).cfg.reportByteCount = 3 ∧
      ∀ sh, (withReport (some [5#8, 3#8, 0x7F#8]) (some [5#8, 3#8, 0x7E#8])).shadow = some sh → sh.length = 3 := by
  refine ⟨by decide +kernel, by decide +kernel, fun sh h => ?_⟩
  have : sh = [5#8, 3#8, 0x7E#8] := (Option.some.inj h).symm
  rw [this]
  rfl

theorem witness_CommitCopiesTheReport :
    (withReport (some [5#8]) none).usable ∧ (withReport (some [5#8]) none).report = some [5#8] := by
  decide +kernel

theorem witness_CommittedReportIsSuppressed :
    (withReport (some [5#8, 3#8, 0x7F#8]) none).report = some [5#8, 3#8, 0x7F#8] ∧
      (withReport (some [5#8, 3#8, 0x7F#8]) none).cfg.reportByteCount = 3 ∧
      (∃ s1, exec .commitSent (withReport (some [5#8, 3#8, 0x7F#8]) none) = .next s1) ∧
      [5#8, 3#8, 0x7E#8] ≠ [5#8, 3#8, 0x7F#8] := ⟨rfl, by decide +kernel, ⟨_, rfl⟩, by decide⟩

theorem witness_UnwrittenReadFaults :
    State.reset.sample = none ∧ State.reset.report = none ∧ ∃ i : Fin 4, State.reset.cells[i] = none :=
  ⟨rfl, rfl, ⟨3, rfl⟩⟩

theorem witness_RenderIgnoresWhatItDoesNotScan : 4 < visibleCells [0x31#8, 0x32#8, 0x33#8, 0x34#8, 0x35#8] := by
  decide

/-- 'a' has no entry in the reference table. -/
theorem witness_LookupMissIsBlank : (0x61#8 : Byte) ≠ dotChar ∧ ∀ e ∈ State.reset.cfg.glyph, e.1 ≠ 0x61#8 :=
  ⟨by decide, fun e he => by
    have h : Config.gkGlyphs.all (fun e => e.1 != 0x61#8) = true := by decide +kernel
    simpa using List.all_eq_true.mp h e he⟩

theorem witness_ShortRenderAfterClearIsBlankPadded :
    State.reset.cfg.autoWrite = false ∧ visibleCells [0x41#8] ≤ 1 ∧ visibleCells [] ≤ 0 := by decide +kernel

/-- Both sides of each check of PUT_RAW. -/
theorem witness_PutRawWritesOneCell :
    (3#8 : Byte).toNat < 4 ∧ ¬(4#8 : Byte).toNat < 4 ∧ (1#4 : BitVec 4) = 1#4 ∧ (0#4 : BitVec 4) ≠ 1#4 := by decide

theorem witness_ShowPushesTheFramebuffer :
    (withCells 1#8 2#8 3#8 4#8 [ack]).answerAt 0 = .ok [] 0 ∧ (withCells 1#8 2#8 3#8 4#8 [.err]).answerAt 0 = .err ∧
      (withCells 1#8 2#8 3#8 4#8 []).cells = #v[some 1#8, some 2#8, some 3#8, some 4#8] ∧
      ∃ i : Fin 4, State.reset.cells[i] = none := ⟨rfl, rfl, rfl, ⟨0, rfl⟩⟩

/-- Each clause of CLEAR: no push, a push by AUTO_WRITE, a push by force, a failing push. -/
theorem witness_ClearBlanksAndMayPush :
    (fresh []).cfg.autoWrite = false ∧ ({ Config.reference with autoWrite := true } : Config).autoWrite = true ∧
      (fresh [ack]).answerAt 0 = .ok [] 0 ∧ (fresh [.err]).answerAt 0 = .err := ⟨rfl, rfl, rfl, rfl⟩

/-- All three writes, and the last one failing. -/
theorem witness_InitializeIssuesThreeWrites :
    (fresh [ack, ack, ack]).busOk 3 ∧ (fresh [ack, ack, .err]).busOk 2 ∧ (fresh [ack, ack, .err]).answerAt 2 = .err := by
  refine ⟨fun k hk => ?_, fun k hk => ?_, rfl⟩
  · match k, hk with
    | 0, _ => exact ⟨[], 0, rfl⟩
    | 1, _ => exact ⟨[], 0, rfl⟩
    | 2, _ => exact ⟨[], 0, rfl⟩
  · match k, hk with
    | 0, _ => exact ⟨[], 0, rfl⟩
    | 1, _ => exact ⟨[], 0, rfl⟩

/-- Both sides of the mode check, and both answers. -/
theorem witness_SetBlinkLatchesAfterTheWrite :
    3 < (4#8 : Byte).toNat ∧ (3#8 : Byte).toNat < 4 ∧ (fresh [ack]).answerAt 0 = .ok [] 0 ∧
      (fresh [.err]).answerAt 0 = .err := ⟨by decide, by decide, rfl, rfl⟩

/-- CFG-A with 65, and with 17, buttons, and with an empty calibration range. -/
def cfg65 : Config := { Config.reference with buttonCount := 65 }

/-- See `cfg65`. -/
def cfg17 : Config := { Config.reference with buttonCount := 17 }

/-- See `cfg65`. -/
def cfgFlat : Config := { Config.reference with axes := [⟨1, 100, 100⟩] }

theorem gkGlyphs_bit7 : ∀ e ∈ Config.gkGlyphs, e.2.getLsbD 7 = false := fun e he => by
  have h : Config.gkGlyphs.all (fun e => !e.2.getLsbD 7) = true := by decide +kernel
  simpa using List.all_eq_true.mp h e he

/-- A record for each outcome of the check: a bad parameter, too little capacity, no calibration, and none of these. -/
theorem witness_ResetChecksTheConfigurationInOrder :
    (Config.reference.deviceIds.Nodup ∧ cfg65.deviceIds.Nodup ∧ cfg17.deviceIds.Nodup ∧ cfgFlat.deviceIds.Nodup) ∧
      ¬paramRanges cfg65 ∧ (paramRanges cfg17 ∧ cfg17.digCapacity < cfg17.buttonCount) ∧
      (paramRanges cfgFlat ∧ cfgFlat.buttonCount ≤ cfgFlat.digCapacity) ∧
      paramRanges Config.reference ∧ Config.reference.buttonCount ≤ Config.reference.digCapacity :=
  ⟨by decide, fun h => absurd h.1.2 (by decide),
    ⟨⟨by decide, by decide, by decide, by decide, by decide, by decide, by decide, by decide, gkGlyphs_bit7, by decide,
      by decide, by decide⟩, by decide⟩,
    ⟨⟨by decide, by decide, by decide, by decide, by decide, by decide, by decide, by decide, gkGlyphs_bit7, by decide,
      by decide, by decide⟩, by decide⟩,
    ⟨by decide, by decide, by decide, by decide, by decide, by decide, by decide, by decide, gkGlyphs_bit7, by decide,
      by decide, by decide⟩, by decide⟩

theorem witness_ConfigInfoHoldsTheCounts :
    Config.reference.check = .none ∧ Sys2Proof.core.run 1 State.reset = .next State.reset := ⟨by decide +kernel, rfl⟩

/-- Reset meets the invariant. -/
theorem reset_meets_inv : State.reset.Inv := by
  refine ⟨fun _ => by decide +kernel, by decide +kernel, fun _ => rfl, fun h => absurd h (by decide +kernel), rfl,
    ?_, ?_, ?_, ?_, fun _ => rfl⟩
  all_goals intro x h; exact absurd h (by simp [State.reset, State.resetWith])

/-- The last element of each register file, and the first address after it. -/
theorem witness_HostReadMapIsTheTable :
    State.reset.Inv ∧ State.reset.cfg.check = .none ∧ 9 < State.reset.cfg.buttonCount ∧ 0 < State.reset.cfg.axisCount ∧
      2 < State.reset.cfg.reportByteCount ∧ hostRead State.reset 0x100A#16 = none ∧
      hostRead State.reset 0x3003#16 = none :=
  ⟨reset_meets_inv, by decide +kernel, by decide +kernel, by decide +kernel, by decide +kernel, by decide +kernel,
    by decide +kernel⟩

theorem witness_StepKeepsTheInvariant : State.reset.Inv ∧ step State.reset = .next State.reset := ⟨reset_meets_inv, rfl⟩

theorem witness_NoRunChangesTheConfiguration : Sys2Proof.core.run 2 State.reset = .next State.reset := rfl

theorem witness_RenderIsTheTwoStateMachine : State.reset.usable ∧ visibleCells [] = 0 ∧ visibleCells [0x38#8, 0x2E#8] = 1 := by
  decide +kernel

theorem witness_BusHistoryOnlyGrows :
    (fresh [ack]).busLock = .free ∧ (fresh [ack]).cfg.check = .none ∧ ∃ t, exec (.setBlink 0#8) (fresh [ack]) = .next t :=
  ⟨rfl, by decide +kernel, ⟨_, rfl⟩⟩

theorem witness_BusMayAnswerAnythingOfItsShape :
    State.reset.cfg.rawLo ≤ State.reset.cfg.rawHi ∧ State.reset.cfg.digLen 0 = 2 := by decide +kernel

/-- A run that has an end, with a valid bit set before it. -/
theorem witness_NoRunClearsAValidBit :
    (withReport (some [5#8]) none).reportValid = true ∧
      Sys2Proof.core.run 1 (withReport (some [5#8]) none) = .next (withReport (some [5#8]) none) := ⟨rfl, rfl⟩

/-- Each clause's register changed by its writer. -/
theorem witness_EachRegisterHasItsOwnWriters :
    (nextOf (exec .encode (withReport none none))).map State.report ≠ some none ∧
      (nextOf (exec .commitSent (withReport (some [5#8]) none))).map State.shadow ≠ some none ∧
      (nextOf (exec (.setBlink 2#8) (fresh [ack]))).map State.blinkMode ≠ some none ∧
      (nextOf (exec (.clear false) (fresh []))).map State.cells ≠ some State.reset.cells := by decide +kernel

theorem witness_FaultsArePrecise :
    ∃ t, exec (.setBlink 4#8) State.reset = .next t ∧ t.result = .faulted := ⟨_, rfl, rfl⟩

theorem witness_TransientErrorsKeepEarlierWrites :
    (∃ t, exec .initDisplay (fresh [ack, .err]) = .next t ∧ t.result = .transient) ∧
      ∃ t, exec .sample (fresh [.err]) = .next t ∧ t.transientCause = .digReadError := ⟨⟨_, rfl, rfl⟩, ⟨_, rfl, rfl⟩⟩

/-- The HOST delivers a report and commits it. -/
theorem witness_ShadowIsWhatTheUsbHostReceived :
    let w : HostWorld := { block := withReport (some [5#8]) none, received := none }
    w.block.shadow = w.received ∧ commitDutyKept false [.deliver, .command .commitSent] = some false ∧
      ∃ w', w.acts [.deliver, .command .commitSent] = some w' ∧ w'.block.usable :=
  ⟨rfl, rfl, ⟨_, rfl, by decide⟩⟩

/-- A delivery with nothing owed, and the commit it owes. -/
theorem witness_EveryDutifulActKeepsTheDutyInvariant :
    let w : HostWorld := { block := withReport (some [5#8]) none, received := none }
    let w1 : HostWorld := { block := withReport (some [5#8]) none, received := some [5#8] }
    w.dutyInv false ∧ w.act .deliver = some w1 ∧ commitDuty false .deliver = some true ∧ w1.dutyInv true ∧
      (∃ w2, w1.act (.command .commitSent) = some w2) ∧ commitDuty true (.command .commitSent) = some false :=
  ⟨fun _ => rfl, rfl, rfl, fun _ => rfl, ⟨_, rfl⟩, rfl⟩

/-- A command of each path. -/
theorem witness_ReportAndDisplayPathsAreIndependent :
    reportCommand .encode = true ∧ reportCommand .showFb = false := by decide

end Sys2Proof.Tests
end

