-- ==== Sys2Proof/Proofs/Step.lean ====
section
/-! PROOFS. The step of the command port, one equation per branch of R205 that a proof needs (00_scope.md R6;
60_exceptions.md R205, R218). -/

namespace Sys2Proof.Machine

/-- The port's form when it holds a command: what stays on it is the tail. -/
theorem takeCommand_of_commands_cons {s : State} {c : Command} {rest : List Command} (hc : s.commands = c :: rest) :
    s.takeCommand = { s with commands := rest } := by
  rw [State.takeCommand, hc, List.drop_one, List.tail_cons]

theorem issueNext_of_no_command {s : State} (hc : s.commands = []) : s.issueNext = .done s := by
  simp only [State.issueNext, hc]

/-- R205, past both checks: the block is usable and the waiting word is legal. -/
theorem issueNext_of_decode {s : State} {c : Command} {rest : List Command} {i : Instr} (hu : s.usable)
    (hc : s.commands = c :: rest) (hd : decode c = some i) : s.issueNext = .run i s.takeCommand := by
  simp only [State.issueNext, hc, if_neg hu, hd]

theorem step_of_no_command {s : State} (hc : s.commands = []) : step s = .next s := by
  rw [step, issueNext_of_no_command hc]

theorem step_of_decode {s : State} {c : Command} {rest : List Command} {i : Instr} (hu : s.usable)
    (hc : s.commands = c :: rest) (hd : decode c = some i) : step s = exec i s.takeCommand := by
  rw [step, issueNext_of_decode hu hc hd]

/-- Settles O6: the busy half is R205 past its checks, with the taken command named by the port's tail; the idle half
is R218. -/
theorem stepRunsTheDecodedCommand : Obligations.StepRunsTheDecodedCommand := by
  refine ⟨fun s c rest i hu hc hd => ?_, fun s hc => step_of_no_command hc⟩
  calc step s = exec i s.takeCommand := step_of_decode hu hc hd
    _ = exec i { s with commands := rest } := by rw [takeCommand_of_commands_cons hc]

end Sys2Proof.Machine
end

