-- ==== Sys2Proof/Proofs/AxisFinite.lean ====
section
/-! PROOFS. Every axis value SAMPLE latches is finite (10_state.md R31): how large `rneMagnitude` can get, and that
calibration pairs and raw samples of 32 bits (R7) stay far below it. -/

namespace Sys2Proof.Machine

theorem b64Unit_pos : 0 < b64Unit := pow_pos two_pos _

theorem roundHalfEvenNat_le (n d : Nat) : roundHalfEvenNat n d ≤ n / d + 1 := by
  unfold roundHalfEvenNat
  simp only
  split_ifs <;> omega

/-- The scale leaves at most 53 bits before the rounding. -/
theorem div_rneScale_lt (n d : Nat) : n * b64Unit / (d * 2 ^ rneScale n d) < 2 ^ 53 := by
  rw [← Nat.div_div_eq_div_mul]
  apply Nat.div_lt_of_lt_mul
  calc n * b64Unit / d < 2 ^ ((n * b64Unit / d).log2 + 1) := Nat.lt_log2_self
    _ ≤ 2 ^ (rneScale n d + 53) := Nat.pow_le_pow_right (by decide) (by unfold rneScale; omega)
    _ = 2 ^ rneScale n d * 2 ^ 53 := Nat.pow_add ..

theorem rneScale_le {n m : Nat} (hn : n < 2 ^ m) (d : Nat) : rneScale n d ≤ m + 1022 := by
  have hlt : n * b64Unit / d < 2 ^ (m + 1074) :=
    calc n * b64Unit / d ≤ n * b64Unit := Nat.div_le_self ..
      _ < 2 ^ m * b64Unit := Nat.mul_lt_mul_of_pos_right hn b64Unit_pos
      _ = 2 ^ (m + 1074) := by rw [b64Unit, Nat.pow_add]
  unfold rneScale
  rcases Nat.eq_zero_or_pos (n * b64Unit / d) with h0 | hpos
  · rw [h0, Nat.log2_zero]
    omega
  · have := (Nat.log2_lt hpos.ne').mpr hlt
    omega

theorem roundHalfEvenNat_rneScale_le (n d : Nat) :
    roundHalfEvenNat (n * b64Unit) (d * 2 ^ rneScale n d) ≤ 2 ^ 53 :=
  (roundHalfEvenNat_le ..).trans (Nat.succ_le_of_lt (div_rneScale_lt n d))

theorem rneMagnitude_le_scale (n d : Nat) : rneMagnitude n d ≤ (rneScale n d + 2) * 2 ^ 52 := by
  have hround := roundHalfEvenNat_rneScale_le n d
  simp only [rneMagnitude]
  omega

theorem rneMagnitude_le {n m : Nat} (hn : n < 2 ^ m) (d : Nat) : rneMagnitude n d ≤ (m + 1024) * 2 ^ 52 := by
  have hscale : rneScale n d + 2 ≤ m + 1024 := Nat.add_le_add_right (rneScale_le hn d) 2
  exact (rneMagnitude_le_scale n d).trans (Nat.mul_le_mul_right _ hscale)

theorem b64Exponent_ofNat (x : Nat) : b64Exponent (BitVec.ofNat 64 x) = x / 2 ^ 52 % 2 ^ 11 := by
  rw [b64Exponent, BitVec.extractLsb'_toNat, BitVec.toNat_ofNat, Nat.shiftRight_eq_div_pow]
  omega

/-- Below infinity's bits the exponent field is not all ones, whatever the sign. -/
theorem rne64_finite {num : Int} {den : Nat} (h : rneMagnitude num.natAbs den < 2047 * 2 ^ 52) :
    b64Finite (rne64 num den) = true := by
  rw [b64Finite, decide_eq_true_eq, rne64, b64Exponent_ofNat]
  split <;> omega

theorem norm_finite {a : AxisChannel} {n : Int} (ha : fitsS32 a.minInput) (hn : fitsS32 n) :
    b64Finite (norm a n) = true := by
  have hsmall : (n - a.minInput).natAbs < 2 ^ 32 := by omega
  have hmag := rneMagnitude_le hsmall (a.maxInput - a.minInput).toNat
  exact rne64_finite (by omega)

/-- The ranges of check 1 of R204, from a record that reset admitted. -/
theorem paramRanges_of_check {c : Config} (h : c.check = .none) : paramRanges c :=
  ((paramsAdmitted_iff c).mp ((check_none c).mp h).1).1

/-- R109: the sources give at least BUTTON_COUNT bits. -/
theorem buttonCount_le_digCapacity {c : Config} (h : c.check = .none) : c.buttonCount ≤ c.digCapacity :=
  of_decide_eq_true ((check_none c).mp h).2.1

theorem shapeRaw_fitsS32 {c : Config} (h : paramRanges c) (m : Int) : fitsS32 (shapeRaw c m) := by
  obtain ⟨-, -, -, -, -, hlo, hhi, hle, -⟩ := h
  have := shapeRaw_range c m hle
  omega

theorem sampleOf_axis_finite {c : Config} (h : paramRanges c) {bytes : List Byte} {raws : List Int}
    (hr : ∀ n ∈ raws, ∃ m, n = shapeRaw c m) : ∀ v ∈ (sampleOf c bytes raws).axis, b64Finite v = true := by
  intro v hv
  rw [sampleOf, ← List.map_uncurry_zip_eq_zipWith] at hv
  obtain ⟨⟨a, n⟩, hmem, rfl⟩ := List.mem_map.mp hv
  obtain ⟨ha, hn⟩ := List.of_mem_zip hmem
  obtain ⟨m, rfl⟩ := hr n hn
  have hraw := shapeRaw_fitsS32 h m
  obtain ⟨-, -, -, -, haxes, -⟩ := h
  exact norm_finite (haxes a ha).1 hraw

end Sys2Proof.Machine
end

