-- ==== Sys2Proof/Proofs/Invariant.lean ====
section
/-! PROOFS. The invariant: it holds after reset, each operation that commands are built from keeps it, and so does every
command and every step (10_state.md R23 to R36; 70_reset_and_hazards.md R230). -/

namespace Sys2Proof.Machine

/-! ### Reset -/

theorem resetWith_inv (c : Config) : (State.resetWith c).Inv where
  config hu := by
    by_contra hc
    exact hu (if_neg hc)
  fault := by
    show c.check = .none ↔ (if c.check = .none then Result.ok else .faulted) ≠ .faulted
    split <;> simp [*]
  transientOk _ := rfl
  transientErr h := by
    have hne : (if c.check = .none then Result.ok else .faulted) ≠ .transient := by split <;> decide
    exact absurd h hne
  lock := rfl
  sampleShape _ h := nomatch h
  axisFinite _ h := nomatch h
  reportLength _ h := nomatch h
  shadowLength _ h := nomatch h
  sendZero _ := rfl

/-- Settles O36: the machine's own reset is reset under the reference record. -/
theorem resetStateMeetsTheInvariant : Obligations.ResetStateMeetsTheInvariant :=
  ⟨resetWith_inv, resetWith_inv Config.reference⟩

/-! ### The operations -/

section Operations
variable {s : State}

theorem takeCommand_inv (h : s.Inv) : s.takeCommand.Inv := { h with }

theorem afterBus_inv (h : s.Inv) (n : Nat) (es : List BusEvent) : (s.afterBus n es).Inv := { h with lock := rfl }

theorem cellWrites_inv (h : s.Inv) (i : Nat) (vs : List Byte) : (s.cellWrites i vs).Inv := by
  rw [cellWrites_eq]
  exact { h with }

theorem cellWrite_inv (h : s.Inv) (i : Nat) (v : Byte) : (s.cellWrite i v).Inv := cellWrites_inv h i [v]

theorem clearCells_inv (h : s.Inv) : s.clearCells.Inv := cellWrites_inv h 0 _

theorem latchSample_inv (h : s.Inv) {x : Sample}
    (hshape : x.btn.length = s.cfg.buttonCount ∧ x.axis.length = s.cfg.axisCount)
    (hfinite : ∀ v ∈ x.axis, b64Finite v = true) : (s.latchSample x).Inv :=
  { h with
    sampleShape := by rintro _ ⟨⟩; exact hshape
    axisFinite := by rintro _ ⟨⟩; exact hfinite }

theorem writeReport_inv (h : s.Inv) {r : List Byte} (hr : r.length = s.cfg.reportByteCount) : (s.writeReport r).Inv :=
  { h with reportLength := by rintro _ ⟨⟩; exact hr }

theorem writeShadow_inv (h : s.Inv) {r : List Byte} (hr : r.length = s.cfg.reportByteCount) : (s.writeShadow r).Inv :=
  { h with shadowLength := by rintro _ ⟨⟩; exact hr }

theorem writeSend_inv (h : s.Inv) (b : Bool) : (s.writeSend b).Inv := { h with sendZero := nofun }

theorem writeBlinkMode_inv (h : s.Inv) (m : BitVec 2) : (s.writeBlinkMode m).Inv := { h with }

theorem raiseFault_inv (h : s.Inv) {c : FaultCause} (hc : c ≠ .none) : (s.raiseFault c).Inv :=
  { h with
    config := fun hu => absurd rfl hu
    fault := ⟨fun hn => absurd hn hc, fun hu => absurd rfl hu⟩
    transientOk := nofun
    transientErr := nofun }

theorem complete_inv (h : s.Inv) (hu : s.usable) : s.complete.Inv :=
  { h with
    config := fun _ => h.config hu
    fault := ⟨nofun, fun _ => h.fault.mpr hu⟩
    transientOk := fun _ => rfl
    transientErr := nofun }

theorem raiseTransient_inv (h : s.Inv) (hu : s.usable) {c : TransientCause} (hc : c ≠ .none) :
    (s.raiseTransient c).Inv :=
  { h with
    config := fun _ => h.config hu
    fault := ⟨nofun, fun _ => h.fault.mpr hu⟩
    transientOk := nofun
    transientErr := fun _ => hc }

end Operations

theorem cellWrites_usable {s : State} (hu : s.usable) (i : Nat) (vs : List Byte) : (s.cellWrites i vs).usable := by
  rw [cellWrites_eq]
  exact hu

/-- Between commands the lock is free, so reads in a row leave it so even when there is none. -/
theorem afterReads_of_free {s : State} (hl : s.busLock = .free) (es : List BusEvent) :
    s.afterReads es = s.afterBus es.length es := by
  unfold State.afterReads
  split
  · next hes => rw [hes, List.length_nil, afterBus_nil s hl]
  · rfl

/-! ### What SAMPLE and ENCODE write -/

theorem sampleOf_shape {c : Config} {bytes : List Byte} {raws : List Int} (hb : c.buttonCount ≤ 8 * bytes.length)
    (hr : raws.length = c.axisCount) :
    (sampleOf c bytes raws).btn.length = c.buttonCount ∧ (sampleOf c bytes raws).axis.length = c.axisCount := by
  refine ⟨?_, ?_⟩
  · rw [sampleOf, List.length_take, bitStream_length, Nat.min_eq_left hb]
  · rw [sampleOf, List.length_zipWith, hr, Config.axisCount, Nat.min_self]

theorem encodeReport_length {c : Config} {x : Sample} (hx : x.axis.length = c.axisCount) :
    (encodeReport c x).length = c.reportByteCount := by
  simp only [encodeReport, List.length_append, List.length_map, List.length_range, hx, Config.reportByteCount,
    Config.axisByteCount]

/-! ### Commands and steps -/

theorem execSample_inv {s t : State} (hs : s.Inv) (hu : s.usable) (h : execSample s = .next t) : t.Inv := by
  have hcheck := hs.config hu
  rcases execSample_cases h with
    ⟨es, bytes, raws, -, -, hbytes, hraws, hshape, rfl⟩ | ⟨es, e, c, -, -, -, hc, rfl⟩
  · have hb : s.cfg.buttonCount ≤ 8 * bytes.length := hbytes ▸ buttonCount_le_digCapacity hcheck
    rw [afterReads_of_free hs.lock]
    exact complete_inv (latchSample_inv (afterBus_inv hs _ _) (sampleOf_shape hb hraws)
      (sampleOf_axis_finite (paramRanges_of_check hcheck) hshape)) hu
  · refine raiseTransient_inv (afterBus_inv hs _ _) hu ?_
    rcases hc with rfl | rfl <;> decide

/-- Every command of a usable block keeps the invariant. -/
theorem exec_inv {i : Instr} {s t : State} (hs : s.Inv) (hu : s.usable) (h : exec i s = .next t) : t.Inv := by
  cases i with
  | sample => exact execSample_inv hs hu h
  | encode =>
    rcases execEncode_cases h with ⟨-, rfl⟩ | ⟨x, hx, rfl⟩
    · exact raiseFault_inv hs (by decide)
    · exact complete_inv (writeReport_inv hs (encodeReport_length (hs.sampleShape x hx).2)) hu
  | shouldSend force =>
    rcases execShouldSend_cases h with ⟨-, rfl⟩ | ⟨r, -, rfl⟩
    · exact raiseFault_inv hs (by decide)
    · exact complete_inv (writeSend_inv hs _) hu
  | commitSent =>
    rcases execCommitSent_cases h with ⟨-, rfl⟩ | ⟨r, hr, rfl⟩
    · exact raiseFault_inv hs (by decide)
    · exact complete_inv (writeShadow_inv hs (hs.reportLength r hr)) hu
  | render text =>
    rw [execRender_cases h]
    exact complete_inv (cellWrites_inv hs _ _) (cellWrites_usable hu _ _)
  | putRaw len idx val =>
    rcases execPutRaw_cases h with ⟨-, rfl⟩ | ⟨-, -, rfl⟩ | ⟨-, -, rfl⟩
    · exact raiseFault_inv hs (by decide)
    · exact raiseFault_inv hs (by decide)
    · exact complete_inv (cellWrite_inv hs _ _) hu
  | clear force =>
    have hu' : s.clearCells.usable := cellWrites_usable hu _ _
    rcases execClear_cases h with rfl | rfl | rfl
    · exact complete_inv (clearCells_inv hs) hu'
    · exact complete_inv (afterBus_inv (clearCells_inv hs) _ _) hu'
    · exact raiseTransient_inv (afterBus_inv (clearCells_inv hs) _ _) hu' (by decide)
  | showFb =>
    rcases execShowFb_cases h with ⟨-, rfl⟩ | ⟨a, b, c, d, -, rfl | rfl⟩
    · exact raiseFault_inv hs (by decide)
    · exact complete_inv (afterBus_inv hs _ _) hu
    · exact raiseTransient_inv (afterBus_inv hs _ _) hu (by decide)
  | initDisplay =>
    have hu' : s.clearCells.usable := cellWrites_usable hu _ _
    rcases execInitDisplay_cases h with rfl | ⟨k, -, rfl⟩
    · exact complete_inv (afterBus_inv (clearCells_inv hs) _ _) hu'
    · exact raiseTransient_inv (afterBus_inv (clearCells_inv hs) _ _) hu' (by decide)
  | setBlink mode =>
    rcases execSetBlink_cases h with ⟨-, rfl⟩ | ⟨-, rfl | rfl⟩
    · exact raiseFault_inv hs (by decide)
    · exact complete_inv (writeBlinkMode_inv (afterBus_inv hs _ _) _) hu
    · exact raiseTransient_inv (afterBus_inv hs _ _) hu (by decide)

/-- Settles O37, by the cases of R205: an idle block, a refused command, an illegal word, and the commands. -/
theorem stepKeepsTheInvariant : Obligations.StepKeepsTheInvariant := by
  intro s t hs h
  rcases step_cases h with ⟨-, rfl⟩ | ⟨-, rfl⟩ | ⟨-, c, rest, -, -, rfl⟩ | ⟨hu, c, rest, i, -, -, hexec⟩
  · exact hs
  · exact takeCommand_inv hs
  · exact raiseFault_inv (takeCommand_inv hs) (by decide)
  · exact exec_inv (takeCommand_inv hs) hu hexec

end Sys2Proof.Machine
end

