-- ==== Sys2Proof/Proofs/Registers.lean ====
section
/-! PROOFS. What commands do to the registers and to the bus: unwritten reads (10_state.md R20), the register files' own
writers (R25, R29 to R34), the valid bits (R26, R27) and BUS_LOG (R33, R36; 20_memory.md R54, R57). -/

namespace Sys2Proof.Machine

/-! ### Unwritten reads -/

theorem execEncode_of_unwritten {s : State} (h : s.sample = none) : execEncode s = .next (s.raiseFault .uninitRead) := by
  simp only [execEncode, h]

theorem execShouldSend_of_unwritten {s : State} (h : s.report = none) (force : Bool) :
    execShouldSend force s = .next (s.raiseFault .uninitRead) := by
  simp only [execShouldSend, h]

theorem execCommitSent_of_unwritten {s : State} (h : s.report = none) :
    execCommitSent s = .next (s.raiseFault .uninitRead) := by
  simp only [execCommitSent, h]

theorem cellBytes_of_unwritten {s : State} (h : ∃ i : Fin 4, s.cells[i] = none) : s.cellBytes = none := by
  obtain ⟨i, hi⟩ := h
  rcases cellBytes_cases s with ⟨hn, -⟩ | ⟨a, b, c, d, -, hcells⟩
  · exact hn
  · rw [hcells] at hi
    fin_cases i <;> simp at hi

theorem execShowFb_of_unwritten {s : State} (h : ∃ i : Fin 4, s.cells[i] = none) :
    execShowFb s = .next (s.raiseFault .uninitRead) := by
  simp only [execShowFb, cellBytes_of_unwritten h]

/-- Settles O21: each of the four meanings reads its register first (R20). -/
theorem unwrittenReadFaults : Obligations.UnwrittenReadFaults := fun _ _ =>
  ⟨execEncode_of_unwritten, fun h => ⟨execShouldSend_of_unwritten h, execCommitSent_of_unwritten h⟩,
    execShowFb_of_unwritten⟩

/-! ### Writers -/

/-- Settles O42, by the ends of each command: every end changes the command's own register at most. -/
theorem eachRegisterHasItsOwnWriters : Obligations.EachRegisterHasItsOwnWriters := by
  intro i s t h
  cases i with
  | sample => rcases execSample_cases h with ⟨es, _, _, _, _, _, _, _, rfl⟩ | ⟨es, e, c, _, _, _, _, rfl⟩ <;> simp
  | encode => rcases execEncode_cases h with ⟨_, rfl⟩ | ⟨x, _, rfl⟩ <;> simp
  | shouldSend force => rcases execShouldSend_cases h with ⟨_, rfl⟩ | ⟨r, _, rfl⟩ <;> simp
  | commitSent => rcases execCommitSent_cases h with ⟨_, rfl⟩ | ⟨r, _, rfl⟩ <;> simp
  | render text =>
    rw [execRender_cases h, cellWrites_eq]
    simp
  | putRaw len idx val => rcases execPutRaw_cases h with ⟨_, rfl⟩ | ⟨_, _, rfl⟩ | ⟨_, _, rfl⟩ <;> simp
  | clear force => rcases execClear_cases h with rfl | rfl | rfl <;> simp [clearCells_eq]
  | showFb => rcases execShowFb_cases h with ⟨_, rfl⟩ | ⟨a, b, c, d, _, rfl | rfl⟩ <;> simp
  | initDisplay => rcases execInitDisplay_cases h with rfl | ⟨k, _, rfl⟩ <;> simp [clearCells_eq]
  | setBlink mode => rcases execSetBlink_cases h with ⟨_, rfl⟩ | ⟨_, rfl | rfl⟩ <;> simp

/-! ### Valid bits -/

/-- Every valid bit set in `s` is set in `t` (R25 to R27). -/
def State.validBitsKept (s t : State) : Prop :=
  (s.sampleValid = true → t.sampleValid = true) ∧ (s.reportValid = true → t.reportValid = true) ∧
    (s.shadowValid = true → t.shadowValid = true) ∧ (s.sendValid = true → t.sendValid = true) ∧
    (∀ i : Fin 4, s.cellWritten i = true → t.cellWritten i = true) ∧ (s.blinkValid = true → t.blinkValid = true)

theorem State.validBitsKept.refl (s : State) : s.validBitsKept s := ⟨id, id, id, id, fun _ => id, id⟩

theorem State.validBitsKept.trans {s t u : State} (h : s.validBitsKept t) (h' : t.validBitsKept u) : s.validBitsKept u := by
  obtain ⟨hsample, hreport, hshadow, hsend, hcells, hblink⟩ := h
  obtain ⟨hsample', hreport', hshadow', hsend', hcells', hblink'⟩ := h'
  exact ⟨hsample' ∘ hsample, hreport' ∘ hreport, hshadow' ∘ hshadow, hsend' ∘ hsend, fun i => hcells' i ∘ hcells i,
    hblink' ∘ hblink⟩

theorem cellWritten_cellWrite {s : State} {k : Nat} (hk : s.cellWritten k = true) (i : Nat) (v : Byte) :
    (s.cellWrite i v).cellWritten k = true := by
  simp only [State.cellWritten, cellWrite_cells, Vector.getElem?_setIfInBounds] at hk ⊢
  split_ifs <;> simp_all

theorem cellWritten_cellWrites {s : State} {k : Nat} (hk : s.cellWritten k = true) (i : Nat) (vs : List Byte) :
    (s.cellWrites i vs).cellWritten k = true := by
  induction vs generalizing s i with
  | nil => exact hk
  | cons v vs ih => exact ih (cellWritten_cellWrite hk i v) (i + 1)

theorem cellWrites_validBitsKept (s : State) (i : Nat) (vs : List Byte) : s.validBitsKept (s.cellWrites i vs) := by
  refine ⟨?_, ?_, ?_, ?_, fun k hk => cellWritten_cellWrites hk i vs, ?_⟩ <;> rw [cellWrites_eq] <;> exact id

theorem clearCells_validBitsKept (s : State) : s.validBitsKept s.clearCells := cellWrites_validBitsKept s 0 _

section Operations
variable (s : State)

theorem takeCommand_validBitsKept : s.validBitsKept s.takeCommand := .refl s

theorem complete_validBitsKept : s.validBitsKept s.complete := .refl s

theorem raiseFault_validBitsKept (c : FaultCause) : s.validBitsKept (s.raiseFault c) := .refl s

theorem raiseTransient_validBitsKept (c : TransientCause) : s.validBitsKept (s.raiseTransient c) := .refl s

theorem afterBus_validBitsKept (n : Nat) (es : List BusEvent) : s.validBitsKept (s.afterBus n es) := .refl s

theorem afterReads_validBitsKept (es : List BusEvent) : s.validBitsKept (s.afterReads es) := by
  unfold State.afterReads
  split
  · exact .refl s
  · exact afterBus_validBitsKept s _ _

theorem latchSample_validBitsKept (x : Sample) : s.validBitsKept (s.latchSample x) :=
  ⟨fun _ => rfl, id, id, id, fun _ => id, id⟩

theorem writeReport_validBitsKept (r : List Byte) : s.validBitsKept (s.writeReport r) :=
  ⟨id, fun _ => rfl, id, id, fun _ => id, id⟩

theorem writeShadow_validBitsKept (r : List Byte) : s.validBitsKept (s.writeShadow r) :=
  ⟨id, id, fun _ => rfl, id, fun _ => id, id⟩

theorem writeSend_validBitsKept (b : Bool) : s.validBitsKept (s.writeSend b) :=
  ⟨id, id, id, fun _ => rfl, fun _ => id, id⟩

theorem writeBlinkMode_validBitsKept (m : BitVec 2) : s.validBitsKept (s.writeBlinkMode m) :=
  ⟨id, id, id, id, fun _ => id, fun _ => rfl⟩

/-- How a command with display writes ends, whatever it did before them. -/
theorem completeWrites_validBitsKept (n : Nat) (es : List BusEvent) :
    s.validBitsKept (s.afterBus n es).complete := (afterBus_validBitsKept s n es).trans (complete_validBitsKept _)

theorem failWrites_validBitsKept (n : Nat) (es : List BusEvent) (c : TransientCause) :
    s.validBitsKept ((s.afterBus n es).raiseTransient c) :=
  (afterBus_validBitsKept s n es).trans (raiseTransient_validBitsKept _ c)

end Operations

theorem exec_validBitsKept {i : Instr} {s t : State} (h : exec i s = .next t) : s.validBitsKept t := by
  cases i with
  | sample =>
    rcases execSample_cases h with ⟨es, bytes, raws, -, -, -, -, -, rfl⟩ | ⟨es, e, c, -, -, -, -, rfl⟩
    · exact ((afterReads_validBitsKept s es).trans (latchSample_validBitsKept _ _)).trans (complete_validBitsKept _)
    · exact failWrites_validBitsKept s _ _ _
  | encode =>
    rcases execEncode_cases h with ⟨-, rfl⟩ | ⟨x, -, rfl⟩
    · exact raiseFault_validBitsKept s _
    · exact (writeReport_validBitsKept s _).trans (complete_validBitsKept _)
  | shouldSend force =>
    rcases execShouldSend_cases h with ⟨-, rfl⟩ | ⟨r, -, rfl⟩
    · exact raiseFault_validBitsKept s _
    · exact (writeSend_validBitsKept s _).trans (complete_validBitsKept _)
  | commitSent =>
    rcases execCommitSent_cases h with ⟨-, rfl⟩ | ⟨r, -, rfl⟩
    · exact raiseFault_validBitsKept s _
    · exact (writeShadow_validBitsKept s _).trans (complete_validBitsKept _)
  | render text =>
    rw [execRender_cases h]
    exact (cellWrites_validBitsKept s 0 _).trans (complete_validBitsKept _)
  | putRaw len idx val =>
    rcases execPutRaw_cases h with ⟨-, rfl⟩ | ⟨-, -, rfl⟩ | ⟨-, -, rfl⟩
    · exact raiseFault_validBitsKept s _
    · exact raiseFault_validBitsKept s _
    · exact (cellWrites_validBitsKept s idx.toNat [val]).trans (complete_validBitsKept _)
  | clear force =>
    refine (clearCells_validBitsKept s).trans ?_
    rcases execClear_cases h with rfl | rfl | rfl
    · exact complete_validBitsKept _
    · exact completeWrites_validBitsKept _ _ _
    · exact failWrites_validBitsKept _ _ _ _
  | showFb =>
    rcases execShowFb_cases h with ⟨-, rfl⟩ | ⟨a, b, c, d, -, rfl | rfl⟩
    · exact raiseFault_validBitsKept s _
    · exact completeWrites_validBitsKept s _ _
    · exact failWrites_validBitsKept s _ _ _
  | initDisplay =>
    refine (clearCells_validBitsKept s).trans ?_
    rcases execInitDisplay_cases h with rfl | ⟨k, -, rfl⟩
    · exact completeWrites_validBitsKept _ _ _
    · exact failWrites_validBitsKept _ _ _ _
  | setBlink mode =>
    rcases execSetBlink_cases h with ⟨-, rfl⟩ | ⟨-, rfl | rfl⟩
    · exact raiseFault_validBitsKept s _
    · exact ((afterBus_validBitsKept s _ _).trans (writeBlinkMode_validBitsKept _ _)).trans (complete_validBitsKept _)
    · exact failWrites_validBitsKept s _ _ _

theorem step_validBitsKept {s t : State} (h : step s = .next t) : s.validBitsKept t := by
  rcases step_cases h with ⟨-, rfl⟩ | ⟨-, rfl⟩ | ⟨-, c, rest, -, -, rfl⟩ | ⟨-, c, rest, i, -, -, hexec⟩
  · exact .refl _
  · exact takeCommand_validBitsKept s
  · exact (takeCommand_validBitsKept s).trans (raiseFault_validBitsKept _ _)
  · exact (takeCommand_validBitsKept s).trans (exec_validBitsKept hexec)

/-- Settles O41, by induction on the run. -/
theorem noRunClearsAValidBit : Obligations.NoRunClearsAValidBit :=
  run_induction State.validBitsKept .refl (fun _ _ _ => .trans) fun _ _ => step_validBitsKept

/-! ### The bus -/

/-- `t` is `s` after the transactions `es`, as far as the bus goes: the lock is free, the history is longer by `es` and
one answer is used for each event (R33, R54, R57). -/
def State.busAfter (s : State) (es : List BusEvent) (t : State) : Prop :=
  t.busLock = .free ∧ t.busLog = s.busLog ++ es ∧ t.busAnswers = s.busAnswers.drop es.length ∧
    t.busDraws = s.busDraws + (es.length - s.busAnswers.length)

theorem afterBus_busAfter (s : State) {n : Nat} {es : List BusEvent} (hn : es.length = n) :
    s.busAfter es (s.afterBus n es) := by
  subst hn
  exact ⟨rfl, rfl, rfl, rfl⟩

theorem busAfter_nil {s : State} (h : s.busLock = .free) : s.busAfter [] s := by
  have hbus := afterBus_busAfter s List.length_nil
  rwa [afterBus_nil s h] at hbus

/-- The writes up to the first failing one, counted. -/
theorem failedWrites_length {ws : List (List Byte)} {k : Nat} (hk : k < ws.length) :
    ((ws.take k).map BusEvent.wr ++ [BusEvent.wrErr ws[k]]).length = k + 1 := by
  rw [List.length_append, List.length_map, List.length_take_of_le hk.le, List.length_singleton]

/-- Display writes that are not empty have the shape of R57, the last one failing or not. -/
theorem eventShape_writes {c : Config} {ws : List (List Byte)} (hws : ∀ w ∈ ws, w ≠ []) :
    ∀ e ∈ ws.map BusEvent.wr, eventShape c e := by
  intro e he
  obtain ⟨w, hw, rfl⟩ := List.mem_map.mp he
  exact hws w hw

theorem eventShape_failedWrite {c : Config} {ws : List (List Byte)} (hws : ∀ w ∈ ws, w ≠ []) {k : Nat}
    (hk : k < ws.length) : ∀ e ∈ (ws.take k).map BusEvent.wr ++ [.wrErr ws[k]], eventShape c e := by
  intro e he
  rcases List.mem_append.mp he with he | he
  · exact eventShape_writes (fun w hw => hws w (List.mem_of_mem_take hw)) e he
  · rw [List.mem_singleton.mp he]
    exact hws _ (List.getElem_mem hk)

/-- A command of one display write, by its two ends. -/
theorem eventShape_write {c : Config} {w : List Byte} (hw : w ≠ []) :
    (∀ e ∈ [BusEvent.wr w], eventShape c e) ∧ ∀ e ∈ [BusEvent.wrErr w], eventShape c e :=
  ⟨List.forall_mem_singleton.mpr hw, List.forall_mem_singleton.mpr hw⟩

theorem initWrites_ne_nil {c : Config} (h : paramRanges c) :
    ∀ w ∈ [blankFramebuffer c, c.cmdOscOn, c.cmdDisplayOn], w ≠ [] := by
  obtain ⟨-, -, -, -, -, -, -, -, -, hosc, hdisplay, -⟩ := h
  simp [blankFramebuffer, framebuffer, hosc, hdisplay]

theorem blinkCommand_ne_nil {c : Config} (h : paramRanges c) (m : BitVec 2) : c.blinkCommand m ≠ [] := by
  obtain ⟨-, -, -, -, -, -, -, -, -, -, -, hblink⟩ := h
  exact hblink m.toFin

/-- Every end of every command is `State.busAfter` of shaped events. -/
theorem exec_busAfter {i : Instr} {s t : State} (hl : s.busLock = .free) (hp : paramRanges s.cfg)
    (h : exec i s = .next t) : ∃ es, s.busAfter es t ∧ ∀ e ∈ es, eventShape s.cfg e := by
  have idle : s.busAfter [] s ∧ ∀ e ∈ ([] : List BusEvent), eventShape s.cfg e := ⟨busAfter_nil hl, nofun⟩
  cases i with
  | sample =>
    have hraw : s.cfg.rawLo ≤ s.cfg.rawHi := by
      obtain ⟨-, -, -, -, -, -, -, hle, -⟩ := hp
      exact hle
    rcases execSample_cases h with ⟨es, bytes, raws, -, hes, -, -, -, rfl⟩ | ⟨es, e, c, -, -, hes, -, rfl⟩
    · rw [afterReads_of_free hl]
      exact ⟨es, afterBus_busAfter s rfl, fun e he => (hes e he).2 hraw⟩
    · exact ⟨es ++ [e], afterBus_busAfter s List.length_append, hes hraw⟩
  | encode => rcases execEncode_cases h with ⟨-, rfl⟩ | ⟨x, -, rfl⟩ <;> exact ⟨[], idle⟩
  | shouldSend force => rcases execShouldSend_cases h with ⟨-, rfl⟩ | ⟨r, -, rfl⟩ <;> exact ⟨[], idle⟩
  | commitSent => rcases execCommitSent_cases h with ⟨-, rfl⟩ | ⟨r, -, rfl⟩ <;> exact ⟨[], idle⟩
  | render text =>
    rw [execRender_cases h, cellWrites_eq]
    exact ⟨[], idle⟩
  | putRaw len idx val =>
    rcases execPutRaw_cases h with ⟨-, rfl⟩ | ⟨-, -, rfl⟩ | ⟨-, -, rfl⟩ <;> exact ⟨[], idle⟩
  | clear force =>
    obtain ⟨hok, herr⟩ := eventShape_write (c := s.cfg) (initWrites_ne_nil hp _ List.mem_cons_self)
    have hends := execClear_cases h
    rw [clearCells_eq] at hends
    rcases hends with rfl | rfl | rfl
    · exact ⟨[], idle⟩
    · exact ⟨_, afterBus_busAfter s rfl, hok⟩
    · exact ⟨_, afterBus_busAfter s rfl, herr⟩
  | showFb =>
    rcases execShowFb_cases h with ⟨-, rfl⟩ | ⟨a, b, c, d, -, hend⟩
    · exact ⟨[], idle⟩
    · obtain ⟨hok, herr⟩ := eventShape_write (c := s.cfg) (List.cons_ne_nil s.cfg.fbCmd [a, b, c, d])
      rcases hend with rfl | rfl
      · exact ⟨_, afterBus_busAfter s rfl, hok⟩
      · exact ⟨_, afterBus_busAfter s rfl, herr⟩
  | initDisplay =>
    have hws := initWrites_ne_nil hp
    have hends := execInitDisplay_cases h
    rw [clearCells_eq] at hends
    rcases hends with rfl | ⟨k, hk, rfl⟩
    · exact ⟨_, afterBus_busAfter s rfl, eventShape_writes hws⟩
    · exact ⟨_, afterBus_busAfter s (failedWrites_length hk), eventShape_failedWrite hws hk⟩
  | setBlink mode =>
    rcases execSetBlink_cases h with ⟨-, rfl⟩ | ⟨-, hend⟩
    · exact ⟨[], idle⟩
    · obtain ⟨hok, herr⟩ := eventShape_write (c := s.cfg) (blinkCommand_ne_nil hp (mode.extractLsb' 0 2))
      rcases hend with rfl | rfl
      · exact ⟨_, afterBus_busAfter s rfl, hok⟩
      · exact ⟨_, afterBus_busAfter s rfl, herr⟩

/-- Settles O39. -/
theorem busHistoryOnlyGrows : Obligations.BusHistoryOnlyGrows := by
  intro i s t hl hcheck h
  obtain ⟨es, ⟨hlock, hlog, hanswers, hdraws⟩, hshape⟩ := exec_busAfter hl (paramRanges_of_check hcheck) h
  exact ⟨hlock, es, hlog, hanswers, hdraws, hshape⟩

end Sys2Proof.Machine
end

