-- ==== Sys2Proof/Proofs/StatusWords.lean ====
section
/-! PROOFS. The two status words: what a window of bits of a word made of fields reads (00_scope.md R10), and from that the
fields of STATUS (10_state.md R21) and CONFIG_INFO (R28). -/

namespace Sys2Proof

/-! ### Reading a field back -/

@[simp] theorem extractLsb'_fieldAt_same {n pos : Nat} (v : BitVec n) (h : pos + n ≤ 32) :
    (fieldAt pos v).extractLsb' pos n = v := by
  ext i hi
  rw [BitVec.getElem_extractLsb', getLsbD_fieldAt]
  have h32 : pos + i < 32 := by omega
  simp [h32, BitVec.getLsbD_eq_getElem hi]

@[simp] theorem extractLsb'_fieldAt_disjoint {n pos start len : Nat} (v : BitVec n)
    (h : pos + n ≤ start ∨ start + len ≤ pos) :
    (fieldAt pos v).extractLsb' start len = 0#len := by
  ext i hi
  rw [BitVec.getElem_extractLsb', getLsbD_fieldAt, BitVec.getElem_zero]
  rcases h with h | h
  · rw [BitVec.getLsbD_of_ge v _ (by omega), Bool.and_false]
  · have hlt : start + i < pos := by omega
    simp [hlt]

/-- A window of one bit is that bit. -/
theorem getLsbD_of_extractLsb'_one {n pos : Nat} {w : BitVec n} {b : Bool} (h : w.extractLsb' pos 1 = BitVec.ofBool b) :
    w.getLsbD pos = b := by
  have hbit := congrArg (fun v => v.getLsbD 0) h
  simpa [BitVec.getLsbD_extractLsb'] using hbit

/-- A window that holds a number that fits it holds the number whole. -/
theorem toNat_of_extractLsb' {w : BitVec 32} {start len k : Nat} (h : w.extractLsb' start len = BitVec.ofNat len k)
    (hk : k < 2 ^ len) : w.toNat / 2 ^ start % 2 ^ len = k := by
  have hnat := congrArg BitVec.toNat h
  rwa [BitVec.extractLsb'_toNat, Nat.shiftRight_eq_div_pow, BitVec.toNat_ofNat, Nat.mod_eq_of_lt hk] at hnat

namespace Machine

/-! ### STATUS -/

section Status
variable (s : State)

theorem statusWord_result : s.statusWord.extractLsb' 0 2 = s.result.code := by
  simp [State.statusWord, BitVec.extractLsb'_or]

theorem statusWord_reserved_low : s.statusWord.extractLsb' 2 2 = 0#2 := by
  simp [State.statusWord, BitVec.extractLsb'_or]

theorem statusWord_faultCause : s.statusWord.extractLsb' 4 4 = s.faultCause.code := by
  simp [State.statusWord, BitVec.extractLsb'_or]

theorem statusWord_transientCause : s.statusWord.extractLsb' 8 4 = s.transientCause.code := by
  simp [State.statusWord, BitVec.extractLsb'_or]

theorem statusWord_reserved_high : s.statusWord.extractLsb' 22 10 = 0#10 := by
  simp [State.statusWord, BitVec.extractLsb'_or]

/-- SEND and the valid bits, bits 12 to 21 (R21, R25 to R27). -/
theorem statusWord_bits :
    s.statusWord.getLsbD 12 = s.send ∧ s.statusWord.getLsbD 13 = s.sendValid ∧
      s.statusWord.getLsbD 14 = s.sampleValid ∧ s.statusWord.getLsbD 15 = s.reportValid ∧
      s.statusWord.getLsbD 16 = s.shadowValid ∧ s.statusWord.getLsbD 21 = s.blinkValid := by
  refine ⟨?_, ?_, ?_, ?_, ?_, ?_⟩ <;> apply getLsbD_of_extractLsb'_one <;> simp [State.statusWord, BitVec.extractLsb'_or]

theorem statusWord_cellWritten (i : Fin 4) : s.statusWord.getLsbD (17 + i.val) = s.cellWritten i := by
  apply getLsbD_of_extractLsb'_one
  fin_cases i <;> simp [State.statusWord, BitVec.extractLsb'_or]

theorem cellWritten_fin (i : Fin 4) : s.cellWritten i = s.cells[i].isSome := by
  simp [State.cellWritten]

theorem hostRead_status : hostRead s 0x0000#16 = some (s.statusWord.setWidth 64) := rfl

theorem hostRead_configInfo : hostRead s 0x0001#16 = some ((configInfoWord s.cfg).setWidth 64) := rfl

end Status

/-- R42: no cell is written after reset. -/
theorem resetWith_cells_getD (c : Config) (i : Nat) : (State.resetWith c).cells[i]?.getD none = none := by
  have hcells : (State.resetWith c).cells = Vector.replicate 4 none := rfl
  rw [hcells, Vector.getElem?_replicate]
  split <;> rfl

theorem resetWith_cellWritten (c : Config) (i : Nat) : (State.resetWith c).cellWritten i = false := by
  rw [State.cellWritten, resetWith_cells_getD, Option.isSome_none]

theorem fieldAt_zero (pos n : Nat) : fieldAt pos 0#n = 0#32 := by
  rw [fieldAt, BitVec.setWidth_zero, BitVec.zero_shiftLeft]

/-- R42: RESULT and FAULT_CAUSE are all that STATUS holds after reset. -/
theorem resetWith_statusWord (c : Config) :
    (State.resetWith c).statusWord =
      fieldAt 0 (if c.check = .none then Result.ok else .faulted).code ||| fieldAt 4 c.check.code := by
  have hcause : TransientCause.none.code = 0#4 := rfl
  simp only [State.statusWord, resetWith_cellWritten]
  simp [State.resetWith, State.sampleValid, State.reportValid, State.shadowValid, State.blinkValid, hcause, fieldAt_zero]

theorem resetWith_statusWord_toNat (c : Config) :
    (State.resetWith c).statusWord.toNat = if c.check = .none then 0 else 16 * c.check.code.toNat + 2 := by
  rw [resetWith_statusWord]
  cases c.check <;> rfl

/-- Settles O34. -/
theorem statusFieldsStandWhereTheTableSays : Obligations.StatusFieldsStandWhereTheTableSays := by
  refine ⟨resetWith_statusWord_toNat, fun s => ?_⟩
  obtain ⟨hsend, hsendValid, hsample, hreport, hshadow, hblink⟩ := statusWord_bits s
  exact ⟨hostRead_status s, statusWord_result s, statusWord_reserved_low s, statusWord_faultCause s,
    statusWord_transientCause s, hsend, hsendValid, hsample, hreport, hshadow,
    fun i => (statusWord_cellWritten s i).trans (cellWritten_fin s i), hblink, statusWord_reserved_high s⟩

/-! ### CONFIG_INFO -/

section ConfigInfo
variable (c : Config)

theorem configInfoWord_buttonCount : (configInfoWord c).extractLsb' 0 7 = BitVec.ofNat 7 c.buttonCount := by
  simp [configInfoWord, BitVec.extractLsb'_or]

theorem configInfoWord_autoWrite : (configInfoWord c).getLsbD 7 = c.autoWrite := by
  apply getLsbD_of_extractLsb'_one
  simp [configInfoWord, BitVec.extractLsb'_or]

theorem configInfoWord_axisCount : (configInfoWord c).extractLsb' 8 8 = BitVec.ofNat 8 c.axisCount := by
  simp [configInfoWord, BitVec.extractLsb'_or]

theorem configInfoWord_reportByteCount :
    (configInfoWord c).extractLsb' 16 16 = BitVec.ofNat 16 c.reportByteCount := by
  simp [configInfoWord, BitVec.extractLsb'_or]

end ConfigInfo

/-- How large the counts of an admitted record are (R7, R8). -/
theorem counts_le_of_paramRanges {c : Config} (h : paramRanges c) :
    c.buttonCount ≤ 64 ∧ c.axisCount ≤ 255 ∧ c.reportByteCount ≤ 263 := by
  obtain ⟨⟨-, hbuttons⟩, -, -, haxes, -⟩ := h
  refine ⟨hbuttons, haxes, ?_⟩
  simp only [Config.reportByteCount, Config.buttonByteCount, Config.axisByteCount, Config.axisCount]
  omega

/-- No step changes the record (R7). -/
theorem step_cfg {s t : State} (h : step s = .next t) : t.cfg = s.cfg := by
  rcases step_cases h with ⟨-, rfl⟩ | ⟨-, rfl⟩ | ⟨-, c, rest, -, -, rfl⟩ | ⟨-, c, rest, i, -, -, hexec⟩
  · rfl
  · exact takeCommand_cfg s
  · rw [raiseFault_cfg, takeCommand_cfg]
  · rw [exec_cfg hexec, takeCommand_cfg]

theorem run_cfg {n : Nat} {s t : State} (h : Sys2Proof.core.run n s = .next t) : t.cfg = s.cfg :=
  run_induction (fun s t => t.cfg = s.cfg) (fun _ => rfl) (fun _ _ _ hst htu => htu.trans hst) (fun _ _ => step_cfg)
    n s t h

/-- Settles O35: the counts of an admitted record fit their fields. -/
theorem configInfoHoldsTheCounts : Obligations.ConfigInfoHoldsTheCounts := by
  refine ⟨hostRead_configInfo, fun n s t h => ?_, fun c hcheck => ?_⟩
  · rw [hostRead_configInfo, hostRead_configInfo, run_cfg h]
  · obtain ⟨hbuttons, haxes, hreport⟩ := counts_le_of_paramRanges (paramRanges_of_check hcheck)
    have hb := toNat_of_extractLsb' (configInfoWord_buttonCount c) (by omega)
    have ha := toNat_of_extractLsb' (configInfoWord_axisCount c) (by omega)
    have hr := toNat_of_extractLsb' (configInfoWord_reportByteCount c) (by omega)
    refine ⟨?_, configInfoWord_autoWrite c, ha, ?_⟩ <;> omega

end Machine
end Sys2Proof
end

