-- ==== Sys2Proof/Proofs/HostRead.lean ====
section
/-! PROOFS. The host read map, one equation per row (10_state.md R40), and what it gives after reset (R42). The bounds of an
admitted record's counts keep the rows of the register files apart from the rows that are always valid. -/

namespace Sys2Proof.Machine

/-! ### The rows -/

section Rows
variable {s : State} {k : Nat}

theorem hostRead_blinkMode (s : State) : hostRead s 0x0002#16 = s.blinkMode.map (fun m => m.setWidth 64) := rfl

theorem hostRead_btn (hp : paramRanges s.cfg) (hk : k < s.cfg.buttonCount) :
    hostRead s (BitVec.ofNat 16 (0x1000 + k)) =
      (s.sample.bind (fun x => x.btn[k]?)).map (fun b => (BitVec.ofBool b).setWidth 64) := by
  obtain ⟨hbuttons, haxes, hreport⟩ := counts_le_of_paramRanges hp
  simp (disch := omega) only [hostRead, BitVec.toNat_ofNat, Nat.mod_eq_of_lt, if_neg, if_pos, Nat.add_sub_cancel_left]

theorem hostRead_axis (hp : paramRanges s.cfg) (hk : k < s.cfg.axisCount) :
    hostRead s (BitVec.ofNat 16 (0x2000 + k)) = s.sample.bind (fun x => x.axis[k]?) := by
  obtain ⟨hbuttons, haxes, hreport⟩ := counts_le_of_paramRanges hp
  simp (disch := omega) only [hostRead, BitVec.toNat_ofNat, Nat.mod_eq_of_lt, if_neg, if_pos, Nat.add_sub_cancel_left]

theorem hostRead_report (hp : paramRanges s.cfg) (hk : k < s.cfg.reportByteCount) :
    hostRead s (BitVec.ofNat 16 (0x3000 + k)) = (s.report.bind (fun r => r[k]?)).map (fun b => b.setWidth 64) := by
  obtain ⟨hbuttons, haxes, hreport⟩ := counts_le_of_paramRanges hp
  simp (disch := omega) only [hostRead, BitVec.toNat_ofNat, Nat.mod_eq_of_lt, if_neg, if_pos, Nat.add_sub_cancel_left]

theorem hostRead_shadow (hp : paramRanges s.cfg) (hk : k < s.cfg.reportByteCount) :
    hostRead s (BitVec.ofNat 16 (0x4000 + k)) = (s.shadow.bind (fun r => r[k]?)).map (fun b => b.setWidth 64) := by
  obtain ⟨hbuttons, haxes, hreport⟩ := counts_le_of_paramRanges hp
  simp (disch := omega) only [hostRead, BitVec.toNat_ofNat, Nat.mod_eq_of_lt, if_neg, if_pos, Nat.add_sub_cancel_left]

theorem hostRead_framebuffer (s : State) (hk : k < 5) :
    hostRead s (BitVec.ofNat 16 (0x5000 + k)) = (s.framebufferAt k).map (fun b => b.setWidth 64) := by
  simp (disch := omega) only [hostRead, BitVec.toNat_ofNat, Nat.mod_eq_of_lt, if_neg, if_pos, Nat.add_sub_cancel_left]

theorem hostRead_fbCmd (s : State) : hostRead s 0x5000#16 = some (s.cfg.fbCmd.setWidth 64) :=
  hostRead_framebuffer s (k := 0) (by decide)

theorem framebufferAt_succ (s : State) (i : Fin 4) : s.framebufferAt (i.val + 1) = s.cells[i] := by
  simp [State.framebufferAt]

theorem hostRead_cell (s : State) (i : Fin 4) :
    hostRead s (BitVec.ofNat 16 (0x5001 + i.val)) = s.cells[i].map (fun b => b.setWidth 64) := by
  rw [← framebufferAt_succ s i, ← hostRead_framebuffer s (by omega), ← Nat.add_assoc, Nat.add_right_comm]

theorem hostRead_glyph (s : State) (c : Byte) :
    hostRead s (BitVec.ofNat 16 (0x6000 + c.toNat)) = some ((s.cfg.glyphOf c).setWidth 64) := by
  have hc := c.isLt
  simp (disch := omega) only [hostRead, BitVec.toNat_ofNat, Nat.mod_eq_of_lt, if_neg, if_pos, Nat.add_sub_cancel_left,
    BitVec.ofNat_toNat, BitVec.setWidth_eq]

/-- A register file of the right length gives its element where it is written. -/
theorem bind_getElem?_eq_map_getD {α β : Type} {o : Option β} {file : β → List α} (d : α)
    (h : ∀ x, o = some x → k < (file x).length) :
    o.bind (fun x => (file x)[k]?) = o.map (fun x => (file x).getD k d) := by
  cases o with
  | none => rfl
  | some x =>
    have hk := h x rfl
    rw [Option.bind_some, Option.map_some, List.getElem?_eq_getElem hk, List.getD_eq_getElem _ _ hk]

end Rows

/-- Settles O33: the rows' equations, read under the lengths that the invariant gives. -/
theorem hostReadMapIsTheTable : Obligations.HostReadMapIsTheTable := by
  intro s hs hcheck
  have hp := paramRanges_of_check hcheck
  refine ⟨hostRead_status s, hostRead_configInfo s, hostRead_blinkMode s, fun i hi => ?_, fun j hj => ?_, fun k hk => ?_,
    fun k hk => ?_, hostRead_fbCmd s, hostRead_cell s, hostRead_glyph s, ?_⟩
  · rw [hostRead_btn hp hi, bind_getElem?_eq_map_getD false fun x hx => (hs.sampleShape x hx).1 ▸ hi, Option.map_map]
    rfl
  · rw [hostRead_axis hp hj, bind_getElem?_eq_map_getD 0#64 fun x hx => (hs.sampleShape x hx).2 ▸ hj]
  · rw [hostRead_report hp hk, bind_getElem?_eq_map_getD 0#8 fun r hr => hs.reportLength r hr ▸ hk, Option.map_map]
    rfl
  · rw [hostRead_shadow hp hk, bind_getElem?_eq_map_getD 0#8 fun r hr => hs.shadowLength r hr ▸ hk, Option.map_map]
    rfl
  · intro a hlow hbtn haxis hreport hshadow hfb hglyph
    simp (disch := omega) only [hostRead, if_neg]

/-! ### After reset -/

theorem resetWith_framebufferAt {k : Nat} (c : Config) (hk : k ≠ 0) : (State.resetWith c).framebufferAt k = none := by
  rw [State.framebufferAt, if_neg hk, resetWith_cells_getD]

/-- R42: a register file that is unwritten gives no value at any address, whatever the counts of the record. -/
theorem resetWith_hostRead_eq_none {c : Config} {a : BitVec 16} (hstatus : a.toNat ≠ 0x0000) (hinfo : a.toNat ≠ 0x0001)
    (hfb : a.toNat ≠ 0x5000) (hglyph : ¬(0x6000 ≤ a.toNat ∧ a.toNat < 0x6100)) :
    hostRead (State.resetWith c) a = none := by
  simp only [hostRead, if_neg hstatus, if_neg hinfo, if_neg hglyph]
  split_ifs with hblink hcells
  · rfl
  · rw [resetWith_framebufferAt c (by omega), Option.map_none]
  all_goals rfl

theorem hostRead_glyph_isSome (s : State) {a : BitVec 16} (ha : 0x6000 ≤ a.toNat ∧ a.toNat < 0x6100) :
    hostRead s a ≠ none := by
  simp (disch := omega) [hostRead, if_neg, if_pos]

/-- Settles O32. -/
theorem resetLeavesEveryRegisterUnwritten : Obligations.ResetLeavesEveryRegisterUnwritten := by
  intro c
  refine ⟨resetWith_statusWord_toNat c, fun a => ⟨fun hread => ?_, ?_⟩, hostRead_fbCmd _, rfl, rfl⟩
  · by_contra hout
    simp only [BitVec.toNat_eq (x := a), not_or] at hout
    obtain ⟨hstatus, hinfo, hfb, hglyph⟩ := hout
    exact hread (resetWith_hostRead_eq_none hstatus hinfo hfb hglyph)
  · rintro (rfl | rfl | rfl | hglyph)
    · exact Option.some_ne_none _
    · exact Option.some_ne_none _
    · rw [hostRead_fbCmd]
      exact Option.some_ne_none _
    · exact hostRead_glyph_isSome _ hglyph

end Sys2Proof.Machine
end

