-- ==== Sys2Proof/Proofs/BusAnswers.lean ====
section
/-! PROOFS. What the bus may answer (20_memory.md R57), and the commands that a transfer without an end leaves unfinished
(R56): reads before it that succeed only use answers up, so the one that never comes is the next one they meet. -/

namespace Sys2Proof.Machine

/-! ### The shape of an answer -/

theorem shapeBlock_of_length {len : Nat} {b : List Byte} (h : b.length = len) : shapeBlock len b = b := by
  subst h
  refine List.ext_getElem (shapeBlock_length _ _) fun g hg hb => ?_
  simp [shapeBlock, hb]

theorem shapeRaw_of_range {cfg : Config} {n : Int} (h : cfg.rawLo ≤ n ∧ n ≤ cfg.rawHi) : shapeRaw cfg n = n := by
  obtain ⟨hlo, hhi⟩ := h
  rw [shapeRaw, min_eq_right hhi, max_eq_right hlo]

/-- A block of the right length passes unchanged. -/
theorem busReadBlock_of_length {s : State} {k : Nat} {b : List Byte} {n : Int} (ha : s.answerAt 0 = .ok b n)
    (hlen : b.length = s.cfg.digLen k) : ∃ t, s.busReadBlock k = .ok b t := by
  rw [busReadBlock_eq, ha]
  exact ⟨_, congrArg (BusResult.ok · _) (shapeBlock_of_length hlen)⟩

/-- A raw sample in range passes unchanged. -/
theorem busReadRaw_of_range {s : State} {j : Nat} {bytes : List Byte} {n : Int} (ha : s.answerAt 0 = .ok bytes n)
    (hn : s.cfg.rawLo ≤ n ∧ n ≤ s.cfg.rawHi) : ∃ t, s.busReadRaw j = .ok n t := by
  rw [busReadRaw_eq, ha]
  exact ⟨_, congrArg (BusResult.ok · _) (shapeRaw_of_range hn)⟩

theorem length_of_busReadBlock_ok {s t : State} {k : Nat} {b : List Byte} (h : s.busReadBlock k = .ok b t) :
    b.length = s.cfg.digLen k := by
  rw [busReadBlock_eq] at h
  split at h <;> cases h
  exact shapeBlock_length _ _

theorem range_of_busReadRaw_ok {s t : State} {j : Nat} {n : Int} (hc : s.cfg.rawLo ≤ s.cfg.rawHi)
    (h : s.busReadRaw j = .ok n t) : s.cfg.rawLo ≤ n ∧ n ≤ s.cfg.rawHi := by
  rw [busReadRaw_eq] at h
  split at h <;> cases h
  exact shapeRaw_range _ _ hc

/-- Settles O40: an answer of the right shape is returned as it is, and no other shape is returned. -/
theorem busMayAnswerAnythingOfItsShape : Obligations.BusMayAnswerAnythingOfItsShape := fun s hc =>
  ⟨fun _ b => ⟨fun hlen => ⟨.ok b 0, busReadBlock_of_length rfl hlen⟩, fun ⟨a, _, h⟩ =>
      length_of_busReadBlock_ok (s := { s with busAnswers := [a] }) h⟩,
    fun _ n => ⟨fun hn => ⟨.ok [] n, busReadRaw_of_range rfl hn⟩, fun ⟨a, _, h⟩ =>
      range_of_busReadRaw_ok (s := { s with busAnswers := [a] }) hc h⟩⟩

/-! ### The answers left after an operation -/

theorem busOk_of_le {s : State} {m n : Nat} (h : s.busOk n) (hle : m ≤ n) : s.busOk m :=
  fun k hk => h k (hk.trans_le hle)

/-- Block reads that all succeed use up their answers, one each, whether or not the lock was free. -/
theorem readBlocks_of_busOk {s : State} {n : Nat} (h : s.busOk n) :
    ∃ bytes t, s.readBlocks (List.range n) = .ok bytes t ∧ ∀ k, t.answerAt k = s.answerAt (n + k) := by
  cases n with
  | zero => exact ⟨[], s, rfl, fun k => by rw [Nat.zero_add]⟩
  | succ n =>
    rw [List.range_eq_range']
    exact ⟨_, _, readBlocks_ok (n + 1) 0 s (.inr n.succ_pos) h, answerAt_afterBus s (n + 1) _⟩

theorem clearCells_answerAt (s : State) (k : Nat) : s.clearCells.answerAt k = s.answerAt k := by
  rw [clearCells_eq]
  rfl

/-! ### Commands left unfinished -/

section Hang
variable {s : State} {k : Nat}

theorem endDisplayWrite_hung (hn : s.answerAt 0 = .never) (bytes : List Byte) (onOk : State → State) :
    endDisplayWrite (s.busWrite bytes) onOk = .fault .busHang := by
  rw [busWrite_eq, hn]
  rfl

/-- The answer that never comes is met by a block read, or by a raw read after all of them have succeeded (R101). -/
theorem execSample_hung (hk : k < s.cfg.numDig + s.cfg.axisCount) (h : s.busOk k) (hn : s.answerAt k = .never) :
    execSample s = .fault .busHang := by
  by_cases hdig : k < s.cfg.numDig
  · have hblocks := readBlocks_hung s (List.range s.cfg.numDig) k (by rwa [List.length_range]) h hn
    simp only [execSample, hblocks]
  · obtain ⟨j, rfl⟩ := Nat.exists_eq_add_of_le (Nat.le_of_not_lt hdig)
    obtain ⟨bytes, t, hblocks, hanswers⟩ := readBlocks_of_busOk (busOk_of_le h (Nat.le_add_right _ j))
    have hok : t.busOk j := fun i hi => by
      rw [hanswers]
      exact h _ (Nat.add_lt_add_left hi _)
    have hraws := readRaws_hung t (List.range s.cfg.axisCount) j
      (by rw [List.length_range]; exact Nat.lt_of_add_lt_add_left hk) hok (by rwa [hanswers])
    simp only [execSample, hblocks, hraws]

theorem execInitDisplay_hung (hk : k < 3) (h : s.busOk k) (hn : s.answerAt k = .never) :
    execInitDisplay s = .fault .busHang := by
  have hok : s.clearCells.busOk k := fun j hj => by
    rw [clearCells_answerAt]
    exact h j hj
  have hwrites := busWrites_hung s.clearCells [blankFramebuffer s.cfg, s.cfg.cmdOscOn, s.cfg.cmdDisplayOn] k hk hok
    (by rwa [clearCells_answerAt])
  simp only [execInitDisplay, hwrites, endDisplayWrite]

theorem execClear_hung {force : Bool} (hpush : s.cfg.autoWrite = true ∨ force = true) (hn : s.answerAt 0 = .never) :
    execClear force s = .fault .busHang := by
  rw [execClear, if_pos (Bool.or_eq_true_iff.mpr hpush)]
  exact endDisplayWrite_hung (by rwa [clearCells_answerAt]) _ _

theorem execSetBlink_hung {mode : Byte} (hm : mode.toNat ≤ 3) (hn : s.answerAt 0 = .never) :
    execSetBlink mode s = .fault .busHang := by
  simp only [execSetBlink, blinkOperand, if_neg (Nat.not_lt.mpr hm)]
  exact endDisplayWrite_hung hn _ _

theorem execShowFb_hung (hw : ∀ i : Fin 4, s.cells[i] ≠ none) (hn : s.answerAt 0 = .never) :
    execShowFb s = .fault .busHang := by
  rcases cellBytes_cases s with ⟨-, i, hi⟩ | ⟨a, b, c, d, hcells, -⟩
  · exact absurd hi (hw i)
  · simp only [execShowFb, hcells]
    exact endDisplayWrite_hung hn _ _

end Hang

/-- Settles O9, command by command. -/
theorem hangLeavesTheCommandUnfinished : Obligations.HangLeavesTheCommandUnfinished := fun _ _ =>
  ⟨fun _ => execSample_hung, fun _ => execInitDisplay_hung, fun hn =>
    ⟨fun _ hpush => execClear_hung hpush hn, fun _ hm => execSetBlink_hung hm hn, fun hw => execShowFb_hung hw hn⟩⟩

end Sys2Proof.Machine
end

