-- ==== Sys2Proof/Proofs/Encoding.lean ====
section
/-! PROOFS. The encoding of commands (30_encoding.md R70 to R82). A word decodes iff some instruction has it as its
command word (R77), and a row of the opcode table matches exactly the words of the instructions that bear its mnemonic
(R82); the statements about decoder, encoder and table are read off from these two facts. -/

namespace Sys2Proof

open Laws.EncodesItsRow (opField_wordP opField_wordM)

/-! ### Windows of bits -/

/-- A window from bit 0 on and the window above it, taken as one. -/
theorem extractLsb'_eq_of_low_of_next {n : Nat} {a b : BitVec n} (k m : Nat)
    (hlow : a.extractLsb' 0 k = b.extractLsb' 0 k) (hnext : a.extractLsb' k m = b.extractLsb' k m) :
    a.extractLsb' 0 (k + m) = b.extractLsb' 0 (k + m) := by
  ext i hi
  by_cases hik : i < k
  · simpa [hik] using congrArg (·.getLsbD i) hlow
  · simpa [show i - k < m by omega, Nat.add_sub_of_le (Nat.le_of_not_lt hik)] using congrArg (·.getLsbD (i - k)) hnext

/-- OP and the operand area are the whole word (R70). -/
theorem eq_of_operandArea_eq_of_opField_eq {a b : CmdWord} (harea : operandArea a = operandArea b)
    (hop : opField a = opField b) : a = b := by
  have hall : a.extractLsb' 0 32 = b.extractLsb' 0 32 := extractLsb'_eq_of_low_of_next 28 4 harea hop
  rwa [BitVec.extractLsb'_eq_self, BitVec.extractLsb'_eq_self] at hall

/-- A window of one bit, the converse of `getLsbD_of_extractLsb'_one`. -/
theorem extractLsb'_one {n : Nat} (w : BitVec n) (pos : Nat) : w.extractLsb' pos 1 = BitVec.ofBool (w.getLsbD pos) := by
  ext i hi
  obtain rfl : i = 0 := by omega
  simp

/-! ### The fields of a laid-out word (R72 to R75) -/

section LaidOut
variable (op len : BitVec 4) (f : Bool) (idx val mode : Byte)

@[simp] theorem opField_wordZ : opField (wordZ op) = op := by simp [opField, wordZ]

@[simp] theorem operandArea_wordZ : operandArea (wordZ op) = 0 := by simp [operandArea, wordZ]

@[simp] theorem opField_wordF : opField (wordF op f) = op := by simp [opField, wordF, BitVec.extractLsb'_or]

@[simp] theorem reservedF_wordF : reservedF (wordF op f) = 0 := by simp [reservedF, wordF, BitVec.extractLsb'_or]

@[simp] theorem flagF_wordF : flagF (wordF op f) = f :=
  getLsbD_of_extractLsb'_one (by simp [wordF, BitVec.extractLsb'_or])

@[simp] theorem fieldL_wordP : fieldL (wordP op len idx val) = len := by
  simp [fieldL, wordP, BitVec.extractLsb'_or]

@[simp] theorem fieldX_wordP : fieldX (wordP op len idx val) = idx := by
  simp [fieldX, wordP, BitVec.extractLsb'_or]

@[simp] theorem reservedP_wordP : reservedP (wordP op len idx val) = 0 := by
  simp [reservedP, wordP, BitVec.extractLsb'_or]

@[simp] theorem lowByte_wordP : lowByte (wordP op len idx val) = val := by
  simp [lowByte, wordP, BitVec.extractLsb'_or]

@[simp] theorem reservedM_wordM : reservedM (wordM op mode) = 0 := by simp [reservedM, wordM, BitVec.extractLsb'_or]

@[simp] theorem lowByte_wordM : lowByte (wordM op mode) = mode := by simp [lowByte, wordM, BitVec.extractLsb'_or]

end LaidOut

/-! ### A word whose must-be-0 field is 0 is the one laid out from its fields -/

section FromFields
variable {w : CmdWord} {op : BitVec 4}

theorem wordZ_eq (hop : (opField w).toNat = op.toNat) (hres : operandArea w = 0) : wordZ op = w := by
  obtain rfl := BitVec.eq_of_toNat_eq hop
  exact eq_of_operandArea_eq_of_opField_eq ((operandArea_wordZ _).trans hres.symm) (opField_wordZ _)

theorem wordF_eq (hop : (opField w).toNat = op.toNat) (hres : reservedF w = 0) : wordF op (flagF w) = w := by
  obtain rfl := BitVec.eq_of_toNat_eq hop
  have flag : (wordF (opField w) (flagF w)).extractLsb' 0 1 = w.extractLsb' 0 1 := by
    rw [extractLsb'_one, extractLsb'_one]
    exact congrArg BitVec.ofBool (flagF_wordF _ _)
  have area := extractLsb'_eq_of_low_of_next 1 27 flag ((reservedF_wordF _ _).trans hres.symm)
  exact eq_of_operandArea_eq_of_opField_eq area (opField_wordF _ _)

theorem wordP_eq (hop : (opField w).toNat = op.toNat) (hres : reservedP w = 0) :
    wordP op (fieldL w) (fieldX w) (lowByte w) = w := by
  obtain rfl := BitVec.eq_of_toNat_eq hop
  have lowBytes := extractLsb'_eq_of_low_of_next 8 8 (lowByte_wordP (opField w) (fieldL w) (fieldX w) (lowByte w))
    ((reservedP_wordP _ _ _ _).trans hres.symm)
  have belowL := extractLsb'_eq_of_low_of_next 16 8 lowBytes (fieldX_wordP _ _ _ _)
  have area := extractLsb'_eq_of_low_of_next 24 4 belowL (fieldL_wordP _ _ _ _)
  exact eq_of_operandArea_eq_of_opField_eq area (opField_wordP _ _ _ _)

theorem wordM_eq (hop : (opField w).toNat = op.toNat) (hres : reservedM w = 0) : wordM op (lowByte w) = w := by
  obtain rfl := BitVec.eq_of_toNat_eq hop
  have area := extractLsb'_eq_of_low_of_next 8 20 (lowByte_wordM (opField w) (lowByte w))
    ((reservedM_wordM _ _).trans hres.symm)
  exact eq_of_operandArea_eq_of_opField_eq area (opField_wordM _ _)

end FromFields

/-! ### The decoder in terms of the encoder (R77) -/

/-- The instruction as it comes with the text presented on the port: RENDER takes the text, no other command does
(R76). -/
def Instr.withText (text : List Byte) : Instr → Instr
  | .render _ => .render text
  | i => i

theorem withText_encodeText (i : Instr) : i.withText (encodeText i) = i := by
  cases i <;> rfl

theorem decode_of_encodeWord_eq {c : Command} {i : Instr} (h : encodeWord i = c.word) :
    decode c = some (i.withText c.text) := by
  unfold decode
  rw [← h]
  cases i <;> simp [encodeWord, Instr.withText, opField_wordP, opField_wordM]

theorem encodeWord_of_decode {c : Command} {i : Instr} (h : decode c = some i) :
    encodeWord i = c.word ∧ i.withText c.text = i := by
  unfold decode at h
  split at h <;> simp only [Option.ite_none_right_eq_some, Option.some.injEq, reduceCtorEq] at h
  all_goals obtain ⟨hres, rfl⟩ := h
  case h_1 hop => exact ⟨wordZ_eq hop hres, rfl⟩
  case h_2 hop => exact ⟨wordZ_eq hop hres, rfl⟩
  case h_3 hop => exact ⟨wordF_eq hop hres, rfl⟩
  case h_4 hop => exact ⟨wordZ_eq hop hres, rfl⟩
  case h_5 hop => exact ⟨wordZ_eq hop hres, rfl⟩
  case h_6 hop => exact ⟨wordP_eq hop hres, rfl⟩
  case h_7 hop => exact ⟨wordF_eq hop hres, rfl⟩
  case h_8 hop => exact ⟨wordZ_eq hop hres, rfl⟩
  case h_9 hop => exact ⟨wordZ_eq hop hres, rfl⟩
  case h_10 hop => exact ⟨wordM_eq hop hres, rfl⟩

/-- The decoder refuses a word iff it is no instruction's. -/
theorem decode_eq_none_iff {c : Command} : decode c = none ↔ ∀ i, encodeWord i ≠ c.word := by
  constructor
  · intro hnone i hi
    cases hnone.symm.trans (decode_of_encodeWord_eq hi)
  · intro hword
    by_contra hne
    obtain ⟨i, hi⟩ := Option.ne_none_iff_exists'.mp hne
    exact hword i (encodeWord_of_decode hi).1

/-- Settles O1: the word decodes by its format, and RENDER gets its own text back. -/
theorem decodeOfEncodeIsTheInstruction : Obligations.DecodeOfEncodeIsTheInstruction := fun i =>
  calc decode (encodeCommand i) = some (i.withText (encodeText i)) := decode_of_encodeWord_eq rfl
    _ = some i := congrArg some (withText_encodeText i)

/-- A text comes with RENDER's word alone, so what is decoded then is a RENDER of that text (R76). -/
theorem encodeText_of_decode {c : Command} {i : Instr} (hwf : c.wellFormed = true) (h : decode c = some i) :
    encodeText i = c.text := by
  have htext : i.withText c.text = i := (encodeWord_of_decode h).2
  rcases Bool.or_eq_true_iff.mp hwf with hempty | hrender
  · have hnil : c.text = [] := List.isEmpty_iff.mp hempty
    rw [← htext, hnil]
    cases i <;> rfl
  · have hrenderWord : encodeWord (.render c.text) = c.word := (eq_of_beq hrender).symm
    have htextOfRender : decode c = some (.render c.text) := decode_of_encodeWord_eq hrenderWord
    obtain rfl : Instr.render c.text = i := Option.some.inj (htextOfRender.symm.trans h)
    rfl

/-- Settles O2: the word comes back from its fields, and the text because the command is well formed. -/
theorem encodeOfDecodeIsTheCommand : Obligations.EncodeOfDecodeIsTheCommand := fun c i hwf h => by
  rw [encodeCommand, (encodeWord_of_decode h).1, encodeText_of_decode hwf h]

/-! ### The opcode table (R82) -/

/-- Each instruction's word is in the rows of its mnemonic and in no other. -/
theorem matchesWord_encodeWord (i : Instr) : Laws.EncodesItsRow.Statement i := by
  cases i with
  | sample => exact Laws.EncodesItsRow.sample
  | encode => exact Laws.EncodesItsRow.encode
  | shouldSend force => exact Laws.EncodesItsRow.shouldSend force
  | commitSent => exact Laws.EncodesItsRow.commitSent
  | render text => exact Laws.EncodesItsRow.render text
  | putRaw len idx val => exact Laws.EncodesItsRow.putRaw len idx val
  | clear force => exact Laws.EncodesItsRow.clear force
  | showFb => exact Laws.EncodesItsRow.showFb
  | initDisplay => exact Laws.EncodesItsRow.initDisplay
  | setBlink mode => exact Laws.EncodesItsRow.setBlink mode

/-- A field that the row's mask keeps whole stands in a matching word as in the row. -/
theorem extractLsb'_of_matchesWord {r : OpcodeRow} {w : CmdWord} (h : r.matchesWord w = true) (start len : Nat)
    (hmask : r.mask.extractLsb' start len = BitVec.allOnes len) :
    w.extractLsb' start len = r.matchBits.extractLsb' start len := by
  rw [← eq_of_beq h, BitVec.extractLsb'_and, hmask, BitVec.and_allOnes]

/-- What a row matches is the word of an instruction that bears its mnemonic: OP and the must-be-0 field are as in the
row, and the other fields are the operands. -/
theorem exists_encodeWord_of_matchesWord {r : OpcodeRow} {w : CmdWord} (hr : r ∈ opcodeTable)
    (h : r.matchesWord w = true) : ∃ i : Instr, i.mnemonic = r.mnemonic ∧ encodeWord i = w := by
  have field := extractLsb'_of_matchesWord h
  simp only [opcodeTable, List.mem_cons, List.not_mem_nil, or_false] at hr
  rcases hr with rfl | rfl | rfl | rfl | rfl | rfl | rfl | rfl | rfl | rfl
  all_goals have hop := congrArg BitVec.toNat (field 28 4 rfl)
  · exact ⟨.sample, rfl, wordZ_eq hop (field 0 28 rfl)⟩
  · exact ⟨.encode, rfl, wordZ_eq hop (field 0 28 rfl)⟩
  · exact ⟨.shouldSend _, rfl, wordF_eq hop (field 1 27 rfl)⟩
  · exact ⟨.commitSent, rfl, wordZ_eq hop (field 0 28 rfl)⟩
  · exact ⟨.render [], rfl, wordZ_eq hop (field 0 28 rfl)⟩
  · exact ⟨.putRaw _ _ _, rfl, wordP_eq hop (field 8 8 rfl)⟩
  · exact ⟨.clear _, rfl, wordF_eq hop (field 1 27 rfl)⟩
  · exact ⟨.showFb, rfl, wordZ_eq hop (field 0 28 rfl)⟩
  · exact ⟨.initDisplay, rfl, wordZ_eq hop (field 0 28 rfl)⟩
  · exact ⟨.setBlink _, rfl, wordM_eq hop (field 8 20 rfl)⟩

/-- Every instruction has a row (R71). -/
theorem exists_row_of_mnemonic (i : Instr) : ∃ r ∈ opcodeTable, r.mnemonic = i.mnemonic := by
  cases i <;> simp [opcodeTable, Instr.mnemonic]

/-- No two rows bear one mnemonic. -/
theorem row_eq_of_mnemonic_eq {r r' : OpcodeRow} (hr : r ∈ opcodeTable) (hr' : r' ∈ opcodeTable)
    (h : r.mnemonic = r'.mnemonic) : r = r' :=
  List.inj_on_of_nodup_map (show (opcodeTable.map OpcodeRow.mnemonic).Nodup by decide) hr hr' h

/-- Settles O3: the rows match the instructions' words and no others, and the mnemonics tell the rows apart. -/
theorem opcodeTableDrivesDecoder : Obligations.OpcodeTableDrivesDecoder := by
  refine fun c => ⟨decode_eq_none_iff.trans ⟨fun hword r hr => ?_, fun hrows i hi => ?_⟩, fun i h => ?_⟩
  · by_contra hmatch
    obtain ⟨i, -, hi⟩ := exists_encodeWord_of_matchesWord hr (Bool.eq_true_of_not_eq_false hmatch)
    exact hword i hi
  · obtain ⟨r, hr, hname⟩ := exists_row_of_mnemonic i
    have hmatch := (matchesWord_encodeWord i r hr).mpr hname
    rw [hi, hrows r hr] at hmatch
    cases hmatch
  · obtain ⟨r, hr, hname⟩ := exists_row_of_mnemonic i
    refine ⟨r, hr, hname, fun r' hr' => ?_⟩
    rw [← (encodeWord_of_decode h).1, matchesWord_encodeWord i r' hr', ← hname]
    exact ⟨row_eq_of_mnemonic_eq hr' hr, congrArg _⟩

/-! ### The illegal words (R78) -/

namespace Machine

theorem wordOp_eq (w : CmdWord) : wordOp w = (opField w).toNat := by
  rw [wordOp, opField, BitVec.extractLsb'_toNat, Nat.shiftRight_eq_div_pow]
  omega

theorem extractLsb'_eq_zero_iff {w : CmdWord} {start len : Nat} :
    w.extractLsb' start len = 0 ↔ w.toNat / 2 ^ start % 2 ^ len = 0 := by
  rw [← BitVec.toNat_inj, BitVec.extractLsb'_toNat, Nat.shiftRight_eq_div_pow, BitVec.ofNat_eq_ofNat,
    BitVec.toNat_ofNat, Nat.zero_mod]

theorem operandArea_eq_zero_iff {w : CmdWord} : operandArea w = 0 ↔ wordArea w = 0 := by
  rw [operandArea, extractLsb'_eq_zero_iff, wordArea]
  omega

theorem reservedF_eq_zero_iff {w : CmdWord} : reservedF w = 0 ↔ wordArea w / 2 = 0 := by
  rw [reservedF, extractLsb'_eq_zero_iff, wordArea]
  omega

theorem reservedP_eq_zero_iff {w : CmdWord} : reservedP w = 0 ↔ wordArea w / 2 ^ 8 % 2 ^ 8 = 0 := by
  rw [reservedP, extractLsb'_eq_zero_iff, wordArea]
  omega

theorem reservedM_eq_zero_iff {w : CmdWord} : reservedM w = 0 ↔ wordArea w / 2 ^ 8 = 0 := by
  rw [reservedM, extractLsb'_eq_zero_iff, wordArea]
  omega

/-- R78's list in the decoder's own field readers. -/
theorem illegalWord_iff {w : CmdWord} :
    illegalWord w ↔ (opField w).toNat = 0x0 ∨ 0xB ≤ (opField w).toNat ∨
      ((opField w).toNat ∈ [0x1, 0x2, 0x4, 0x5, 0x8, 0x9] ∧ operandArea w ≠ 0) ∨
      ((opField w).toNat ∈ [0x3, 0x7] ∧ reservedF w ≠ 0) ∨ ((opField w).toNat = 0x6 ∧ reservedP w ≠ 0) ∨
      ((opField w).toNat = 0xA ∧ reservedM w ≠ 0) := by
  rw [Ne, operandArea_eq_zero_iff, Ne, reservedF_eq_zero_iff, Ne, reservedP_eq_zero_iff, Ne, reservedM_eq_zero_iff,
    ← wordOp_eq]

/-- The words R78 lists are the ones R77 has no instruction for. -/
theorem decode_eq_none_iff_illegalWord {c : Command} : decode c = none ↔ illegalWord c.word := by
  rw [illegalWord_iff]
  unfold decode
  split
  case h_11 =>
    have hop : (opField c.word).toNat = 0x0 ∨ 0xB ≤ (opField c.word).toNat := by
      simp only [imp_false] at *
      omega
    exact ⟨fun _ => hop.imp_right .inl, fun _ => rfl⟩
  all_goals
    rename_i hop
    simp [hop]

/-- R205, step 2: the block is usable and the waiting word is illegal. -/
theorem step_of_illegal {s : State} {c : Command} {rest : List Command} (hu : s.usable) (hc : s.commands = c :: rest)
    (hd : decode c = none) : step s = .next (s.takeCommand.raiseFault .illegalCommand) := by
  simp only [step, State.issueNext, hc, if_neg hu, hd]

/-- Settles O5: R78's list is where the decoder refuses, and a refused word is step 2 of R205. -/
theorem illegalWordFaults : Obligations.IllegalWordFaults := by
  refine fun s c rest hu hc => ⟨fun hill => ?_, fun hlegal => ?_⟩
  · have hd : decode c = none := decode_eq_none_iff_illegalWord.mpr hill
    refine ⟨hd, ?_⟩
    rw [step_of_illegal hu hc hd, takeCommand_of_commands_cons hc, State.raiseFault]
  · exact Option.ne_none_iff_exists'.mp (decode_eq_none_iff_illegalWord.not.mpr hlegal)

end Machine

/-! ### The words of the spec (R80) -/

theorem decodeTableWord_of_encodeCommand {w : Nat} {i : Instr} (h : tableCommand 32 w = encodeCommand i) :
    decodeTableWord 32 w = some i := by
  rw [decodeTableWord, if_pos le_rfl, h, decodeOfEncodeIsTheInstruction]

theorem decodeTableWord_of_illegalWord {w : Nat} (h : Machine.illegalWord (tableCommand 32 w).word) :
    decodeTableWord 32 w = none := by
  rw [decodeTableWord, if_pos le_rfl, Machine.decode_eq_none_iff_illegalWord.mpr h]

/-- Settles O4: eleven of the words are the encoder's, and 0x61000100 has a bit in PUT_RAW's must-be-0 byte (R74). -/
theorem specWordsDecode : Obligations.SpecWordsDecode :=
  have legal {w : Nat} {i : Instr} := @decodeTableWord_of_encodeCommand w i
  ⟨legal rfl, legal rfl, legal rfl, legal rfl, legal rfl, legal rfl, legal rfl, legal rfl, legal rfl, legal rfl,
    legal rfl, decodeTableWord_of_illegalWord (by decide)⟩

end Sys2Proof
end

