-- ==== Sys2Proof/Proofs/Sample.lean ====
section
/-! PROOFS. SAMPLE (40_aggregator.md): what its read sequences return and leave, seen from the state it is issued in, and
its three ends: the latch (R101 to R103), a failed digital read and a failed analog read (R107). -/

namespace Sys2Proof.Machine

section Sample
variable {s : State}

/-! ### The events of SAMPLE, sequence by sequence -/

/-- The events of the first `n` block reads of a SAMPLE issued in `s`, all of them successful (R33, R101). -/
def State.blockEvents (s : State) (n : Nat) : List BusEvent := (List.range n).map fun k => .rdBlk k (s.blockAnswer k)

/-- The events of that SAMPLE's first `n` raw reads, all of them successful (R33, R101). -/
def State.rawEvents (s : State) (n : Nat) : List BusEvent := (List.range n).map fun j => .rdRaw j (s.rawAnswer j)

theorem sampleEvents_eq (s : State) : s.sampleEvents = s.blockEvents s.cfg.numDig ++ s.rawEvents s.cfg.axisCount := rfl

theorem blockEvents_length (s : State) (n : Nat) : (s.blockEvents n).length = n := by
  rw [State.blockEvents, List.length_map, List.length_range]

theorem blockEvents_take {k n : Nat} (h : k ≤ n) : (s.blockEvents n).take k = s.blockEvents k := by
  rw [State.blockEvents, ← List.map_take, List.take_range, Nat.min_eq_left h, State.blockEvents]

theorem rawEvents_take {j n : Nat} (h : j ≤ n) : (s.rawEvents n).take j = s.rawEvents j := by
  rw [State.rawEvents, ← List.map_take, List.take_range, Nat.min_eq_left h, State.rawEvents]

theorem sampleEvents_take_blocks {k : Nat} (h : k ≤ s.cfg.numDig) : s.sampleEvents.take k = s.blockEvents k := by
  rw [sampleEvents_eq, List.take_append_of_le_length (by rwa [blockEvents_length]), blockEvents_take h]

theorem sampleEvents_take_raws {j : Nat} (h : j ≤ s.cfg.axisCount) :
    s.sampleEvents.take (s.cfg.numDig + j) = s.blockEvents s.cfg.numDig ++ s.rawEvents j := by
  rw [sampleEvents_eq, List.take_append, blockEvents_length, Nat.add_sub_cancel_left, rawEvents_take h,
    List.take_of_length_le (by rw [blockEvents_length]; exact Nat.le_add_right _ _)]

/-! ### The read sequences, as SAMPLE issues them -/

theorem readBlocks_of_sample_ok (hd : 0 < s.cfg.numDig) (h : s.busOk s.cfg.numDig) :
    s.readBlocks (List.range s.cfg.numDig) =
      .ok s.sampleBytes (s.afterBus s.cfg.numDig (s.blockEvents s.cfg.numDig)) := by
  rw [List.range_eq_range', readBlocks_ok _ 0 s (.inr hd) h, ← List.range_eq_range']
  rfl

theorem readBlocks_of_sample_err {k : Nat} (hk : k < s.cfg.numDig) (h : s.busOk k) (he : s.answerAt k = .err) :
    s.readBlocks (List.range s.cfg.numDig) = .err (s.afterBus (k + 1) (s.blockEvents k ++ [.rdBlkErr k])) := by
  rw [List.range_eq_range', readBlocks_err k _ 0 s hk h he, ← List.range_eq_range', Nat.zero_add]
  rfl

/-- The answers left once the block reads have used theirs. -/
theorem busOk_afterBus {m n : Nat} (h : s.busOk (m + n)) (es : List BusEvent) : (s.afterBus m es).busOk n := fun k hk => by
  rw [answerAt_afterBus]
  exact h _ (Nat.add_lt_add_left hk m)

theorem readRaws_of_sample_ok (h : s.busOk (s.cfg.numDig + s.cfg.axisCount)) (es : List BusEvent) :
    (s.afterBus s.cfg.numDig es).readRaws (List.range s.cfg.axisCount) =
      .ok ((List.range s.cfg.axisCount).map s.rawAnswer)
        (s.afterBus (s.cfg.numDig + s.cfg.axisCount) (es ++ s.rawEvents s.cfg.axisCount)) := by
  rw [List.range_eq_range', readRaws_ok _ 0 _ (.inl rfl) (busOk_afterBus h es), ← List.range_eq_range', afterBus_afterBus]
  simp only [answerAt_afterBus, afterBus_cfg]
  rfl

theorem readRaws_of_sample_err {j : Nat} (hj : j < s.cfg.axisCount) (h : s.busOk (s.cfg.numDig + j))
    (he : s.answerAt (s.cfg.numDig + j) = .err) (es : List BusEvent) :
    (s.afterBus s.cfg.numDig es).readRaws (List.range s.cfg.axisCount) =
      .err (s.afterBus (s.cfg.numDig + j + 1) (es ++ (s.rawEvents j ++ [.rdRawErr j]))) := by
  rw [List.range_eq_range', readRaws_err j _ 0 _ hj (busOk_afterBus h es) (by rwa [answerAt_afterBus]),
    ← List.range_eq_range', afterBus_afterBus, Nat.zero_add]
  simp only [answerAt_afterBus, afterBus_cfg]
  rfl

/-! ### The latched sample -/

theorem numDig_pos_of_check {c : Config} (hc : c.check = .none) : 0 < c.numDig := by
  obtain ⟨-, hdig, -⟩ := paramRanges_of_check hc
  exact hdig

/-- R103: with the capacity check of R109 passed, the cut stream is the stream's first BUTTON_COUNT bits. -/
theorem sampleOf_sampleBytes (hc : s.cfg.check = .none) (raws : List Int) :
    sampleOf s.cfg s.sampleBytes raws =
      { btn := (List.range s.cfg.buttonCount).map (streamBit s.sampleBytes), axis := List.zipWith norm s.cfg.axes raws } := by
  have hlen : 8 * s.sampleBytes.length = s.cfg.digCapacity :=
    sampleBytes_length_aux s.cfg s.blockAnswer fun _ => shapeBlock_length _ _
  rw [sampleOf, bitStream_take _ _ ((buttonCount_le_digCapacity hc).trans_eq hlen.symm)]

/-! ### How SAMPLE ends -/

theorem execSample_of_busOk (hd : 0 < s.cfg.numDig) (h : s.busOk (s.cfg.numDig + s.cfg.axisCount)) :
    execSample s =
      .next (((s.afterBus (s.cfg.numDig + s.cfg.axisCount) s.sampleEvents).latchSample
        (sampleOf s.cfg s.sampleBytes ((List.range s.cfg.axisCount).map s.rawAnswer))).complete) := by
  simp only [execSample, readBlocks_of_sample_ok hd (busOk_of_le h (Nat.le_add_right _ _)),
    readRaws_of_sample_ok h, sampleEvents_eq]

/-- R107, at a digital source. -/
theorem execSample_of_block_err {k : Nat} (hk : k < s.cfg.numDig) (h : s.busOk k) (he : s.answerAt k = .err) :
    execSample s =
      .next ((s.afterBus (k + 1) (s.sampleEvents.take k ++ [.rdBlkErr k])).raiseTransient .digReadError) := by
  simp only [execSample, readBlocks_of_sample_err hk h he, sampleEvents_take_blocks hk.le]

/-- R107, at an analog source: every block read before it has succeeded. -/
theorem execSample_of_raw_err {j : Nat} (hd : 0 < s.cfg.numDig) (hj : j < s.cfg.axisCount)
    (h : s.busOk (s.cfg.numDig + j)) (he : s.answerAt (s.cfg.numDig + j) = .err) :
    execSample s =
      .next ((s.afterBus (s.cfg.numDig + j + 1) (s.sampleEvents.take (s.cfg.numDig + j) ++ [.rdRawErr j])).raiseTransient
        .adcReadError) := by
  simp only [execSample, readBlocks_of_sample_ok hd (busOk_of_le h (Nat.le_add_right _ _)),
    readRaws_of_sample_err hj h he, sampleEvents_take_raws hj.le, List.append_assoc]

end Sample

theorem exec_sample (s : State) : exec .sample s = execSample s := rfl

/-- Settles O10: every read succeeds, so SAMPLE ends in the latch. -/
theorem sampleLatchesTheTruncatedStream : Obligations.SampleLatchesTheTruncatedStream := by
  intro s _ hc h
  rw [exec_sample, execSample_of_busOk (numDig_pos_of_check hc) h, sampleOf_sampleBytes hc]
  rfl

/-- Settles O11, by the kind of the source whose read fails first. -/
theorem sampleStopsAtTheFirstFailure : Obligations.SampleStopsAtTheFirstFailure := by
  intro s _ hc
  refine ⟨fun k hk h he => ?_, fun j hj h he => ?_⟩
  · rw [exec_sample, execSample_of_block_err hk h he, State.raiseTransient]
  · rw [exec_sample, execSample_of_raw_err (numDig_pos_of_check hc) hj h he, State.raiseTransient]

end Sys2Proof.Machine
end

