-- ==== Sys2Proof/Proofs/Norm.lean ====
section
/-! PROOFS. `rne64` is the nearest binary64, ties to even (00_scope.md R12; 40_aggregator.md R104). The quotient lies
between two neighbours on the grid of 2^scale units; `rne64` takes the nearer grid point, and a binary64 off the grid has
a smaller exponent, so it lies below the quotient's binade and is further away. -/

namespace Sys2Proof.Machine

/-! ### The nearest integer -/

theorem roundHalfEvenNat_isNearestInt (n : Nat) {d : Nat} (hd : 0 < d) :
    isNearestInt n d (roundHalfEvenNat n d) := by
  have hr := Nat.mod_lt n hd
  have hn : (n : Int) = d * (n / d : Nat) + (n % d : Nat) := by exact_mod_cast (Nat.div_add_mod n d).symm
  unfold isNearestInt roundHalfEvenNat
  generalize n / d = q at *
  generalize n % d = r at *
  have hdown : (n : Int) - (q : Nat) * d = r := by rw [hn]; ring
  have hup : (n : Int) - (q + 1 : Nat) * d = r - d := by rw [hn]; push_cast; ring
  simp only
  split_ifs
  · rw [hdown]; omega
  · rw [hup]; omega
  · rw [hdown]; omega
  · rw [hup]; omega

/-- Another integer is at least as far from the quotient, and as far only in a tie. -/
theorem isNearestInt_le {x : Int} {u : Nat} {r : Int} (h : isNearestInt x u r) (j : Int) :
    (x - r * u).natAbs ≤ (x - j * u).natAbs ∧ ((x - j * u).natAbs = (x - r * u).natAbs → j = r ∨ r % 2 = 0) := by
  obtain ⟨hhalf, htie⟩ := h
  by_cases hj : j = r
  · subst hj
    exact ⟨le_rfl, fun _ => .inl rfl⟩
  · have hgap : u ≤ ((j - r) * u).natAbs := by
      rw [Int.natAbs_mul, Int.natAbs_natCast]
      exact Nat.le_mul_of_pos_left u (Int.natAbs_pos.mpr (sub_ne_zero.mpr hj))
    have hsplit : x - j * u = (x - r * u) - (j - r) * u := by ring
    rw [hsplit]
    refine ⟨by omega, fun heq => .inr (htie ?_)⟩
    omega

/-! ### The encoding -/

theorem b64Significand_lt (v : Binary64) : b64Significand v < 2 ^ 53 := by
  have := (v.extractLsb' 0 52).isLt
  unfold b64Significand
  split <;> omega

/-- A value whose significand is scaled has its hidden bit. -/
theorem le_b64Significand {v : Binary64} (h : 0 < b64Scale v) : 2 ^ 52 ≤ b64Significand v := by
  have hexp : b64Exponent v ≠ 0 := fun h0 => by rw [b64Scale, h0] at h; exact absurd h (lt_irrefl 0)
  rw [b64Significand, if_neg hexp]
  exact Nat.le_add_left _ _

theorem b64Value_eq (v : Binary64) :
    b64Value v = if v.getLsbD 63 then -((b64Value v).natAbs : Int) else ((b64Value v).natAbs : Int) := by
  unfold b64Value
  split <;> simp

theorem natAbs_b64Value (v : Binary64) : (b64Value v).natAbs = b64Significand v * 2 ^ b64Scale v := by
  unfold b64Value
  split
  · rw [Int.natAbs_neg, Int.natAbs_natCast]
  · rw [Int.natAbs_natCast]

/-- The scale is fixed by the magnitude: the larger scale has the hidden bit, past every significand of the smaller. -/
theorem b64Scale_le_of_magnitude_eq {v w : Binary64}
    (h : b64Significand v * 2 ^ b64Scale v = b64Significand w * 2 ^ b64Scale w) : b64Scale w ≤ b64Scale v := by
  by_contra hlt
  obtain ⟨i, hi⟩ := Nat.exists_eq_add_of_lt (not_le.mp hlt)
  have hhidden := le_b64Significand (v := w) (by omega)
  have hv := b64Significand_lt v
  have hcancel : b64Significand v = b64Significand w * (2 * 2 ^ i) := by
    refine Nat.eq_of_mul_eq_mul_right (Nat.two_pow_pos (b64Scale v)) (h.trans ?_)
    rw [hi]
    ring
  have hpow := Nat.one_le_two_pow (n := i)
  nlinarith

theorem eq_of_fields_eq {v w : Binary64} (hsign : v.getLsbD 63 = w.getLsbD 63) (hexp : b64Exponent v = b64Exponent w)
    (hfrac : (v.extractLsb' 0 52).toNat = (w.extractLsb' 0 52).toNat) : v = w := by
  refine BitVec.eq_of_getLsbD_eq fun i hi => ?_
  have hexpBit := congrArg (BitVec.getLsbD · (i - 52)) (BitVec.eq_of_toNat_eq hexp)
  have hfracBit := congrArg (BitVec.getLsbD · i) (BitVec.eq_of_toNat_eq hfrac)
  simp only [BitVec.getLsbD_extractLsb'] at hexpBit hfracBit
  rcases lt_trichotomy i 63 with hlt | rfl | hgt
  · by_cases hi52 : i < 52
    · simpa [hi52] using hfracBit
    · have hin : i - 52 < 11 := by omega
      have hpos : 52 + (i - 52) = i := by omega
      simpa [hin, hpos] using hexpBit
  · exact hsign
  · omega

/-- A binary64 is its sign and its magnitude. -/
theorem eq_of_natAbs_b64Value_eq {v w : Binary64} (hsign : v.getLsbD 63 = w.getLsbD 63)
    (h : (b64Value v).natAbs = (b64Value w).natAbs) : v = w := by
  rw [natAbs_b64Value, natAbs_b64Value] at h
  have hscale : b64Scale v = b64Scale w :=
    le_antisymm (b64Scale_le_of_magnitude_eq h.symm) (b64Scale_le_of_magnitude_eq h)
  have hsig : b64Significand v = b64Significand w := by
    rw [hscale] at h
    exact Nat.eq_of_mul_eq_mul_right (Nat.two_pow_pos _) h
  have hv := (v.extractLsb' 0 52).isLt
  have hw := (w.extractLsb' 0 52).isLt
  unfold b64Scale at hscale
  unfold b64Significand at hsig
  have hexp : b64Exponent v = b64Exponent w := by
    split at hsig <;> split at hsig <;> omega
  rw [hexp, Nat.add_right_cancel_iff] at hsig
  exact eq_of_fields_eq hsign hexp hsig

/-! ### Distances -/

theorem natAbs_sub_of_signs (p r : Bool) (a x : Nat) :
    ((if p then -(a : Int) else a) - (if r then -(x : Int) else x)).natAbs =
      if p = r then ((x : Int) - a).natAbs else x + a := by
  cases p <;> cases r <;> simp <;> omega

/-- With the signs apart the distance is the sum of the magnitudes, else their difference. -/
theorem distance_eq (w : Binary64) (num : Int) (den : Nat) :
    (b64Value w * den - num * b64Unit).natAbs =
      if w.getLsbD 63 = decide (num < 0) then
        (((num.natAbs * b64Unit : Nat) : Int) - ((b64Value w).natAbs * den : Nat)).natAbs
      else num.natAbs * b64Unit + (b64Value w).natAbs * den := by
  have hnum : num * b64Unit =
      if decide (num < 0) then -((num.natAbs * b64Unit : Nat) : Int) else (num.natAbs * b64Unit : Nat) := by
    rw [Nat.cast_mul]
    split
    next hneg => rw [Int.ofNat_natAbs_of_nonpos (of_decide_eq_true hneg).le, Int.neg_mul, neg_neg]
    next hpos => rw [Int.natAbs_of_nonneg (not_lt.mp (of_decide_eq_false (Bool.eq_false_iff.mpr hpos)))]
  have hval : b64Value w * den =
      if w.getLsbD 63 then -(((b64Value w).natAbs * den : Nat) : Int) else ((b64Value w).natAbs * den : Nat) := by
    conv_lhs => rw [b64Value_eq w]
    split <;> simp
  rw [hnum, hval, natAbs_sub_of_signs]

/-- The grid point `q * 2^k` against any binary64 magnitude `m * 2^s`: with `k ≤ s` that is a grid point too; with `s < k`
it lies below 2^52 units of the grid, and the quotient does not. -/
theorem grid_le {X d k q m s : Nat} (hq : isNearestInt X (d * 2 ^ k : Nat) q)
    (hk : s < k → 2 ^ 52 * (d * 2 ^ k) ≤ X) (hd : 0 < d) (hm : m < 2 ^ 53) :
    ((X : Int) - (q * 2 ^ k * d : Nat)).natAbs ≤ ((X : Int) - (m * 2 ^ s * d : Nat)).natAbs ∧
      (((X : Int) - (m * 2 ^ s * d : Nat)).natAbs = ((X : Int) - (q * 2 ^ k * d : Nat)).natAbs →
        m * 2 ^ s = q * 2 ^ k ∨ q % 2 = 0) := by
  have hgrid (j : Nat) : ((j * 2 ^ k * d : Nat) : Int) = j * (d * 2 ^ k : Nat) := by push_cast; ring
  rcases Nat.lt_or_ge s k with hsk | hsk
  · obtain ⟨i, rfl⟩ := Nat.exists_eq_add_of_lt hsk
    have hX := hk hsk
    have hbelow : m * 2 ^ s * d < 2 ^ 52 * (d * 2 ^ (s + i + 1)) := by
      calc m * 2 ^ s * d ≤ (2 ^ 53 - 1) * 2 ^ s * d := by gcongr; omega
        _ < 2 ^ 53 * 2 ^ s * d := by gcongr; decide
        _ ≤ 2 ^ 53 * 2 ^ s * d * 2 ^ i := Nat.le_mul_of_pos_right _ (Nat.two_pow_pos i)
        _ = 2 ^ 52 * (d * 2 ^ (s + i + 1)) := by ring
    have hnear := (isNearestInt_le hq (2 ^ 52 : Nat)).1
    rw [hgrid]
    refine ⟨?_, fun heq => ?_⟩ <;> omega
  · obtain ⟨i, rfl⟩ := Nat.exists_eq_add_of_le hsk
    have hon : m * 2 ^ (k + i) = m * 2 ^ i * 2 ^ k := by ring
    have hnear := isNearestInt_le hq (m * 2 ^ i : Nat)
    rw [hon, hgrid, hgrid]
    refine ⟨hnear.1, fun heq => ?_⟩
    rcases hnear.2 heq with h | h
    · exact .inl (by rw [Int.natCast_inj.mp h])
    · exact .inr (by omega)

/-! ### The result of `rne64` -/

/-- Past the subnormals the quotient fills 53 bits of the grid. -/
theorem le_of_rneScale_pos {n d : Nat} (hd : 0 < d) (h : 0 < rneScale n d) :
    2 ^ 52 * (d * 2 ^ rneScale n d) ≤ n * b64Unit := by
  unfold rneScale at h
  have hlog : (n * b64Unit / d).log2 = rneScale n d + 52 := by unfold rneScale; omega
  have hne : n * b64Unit / d ≠ 0 := fun h0 => by rw [h0, Nat.log2_zero] at h; omega
  have hle : 2 ^ (rneScale n d + 52) ≤ n * b64Unit / d := hlog ▸ Nat.log2_self_le hne
  calc 2 ^ 52 * (d * 2 ^ rneScale n d) = 2 ^ (rneScale n d + 52) * d := by ring
    _ ≤ n * b64Unit := (Nat.le_div_iff_mul_le hd).mp hle

theorem div_le_roundHalfEvenNat (n d : Nat) : n / d ≤ roundHalfEvenNat n d := by
  unfold roundHalfEvenNat
  simp only
  split_ifs <;> omega

/-- The bits `k * 2^52 + q` hold the grid point `q * 2^k`, the carry of `q = 2^53` into the exponent included. -/
theorem grid_fields {v : Binary64} {sgn k q : Nat} (hv : v = BitVec.ofNat 64 (sgn + (k * 2 ^ 52 + q)))
    (hsgn : sgn = 0 ∨ sgn = 2 ^ 63) (hq : q ≤ 2 ^ 53) (hk : 0 < k → 2 ^ 52 ≤ q) (hfin : k * 2 ^ 52 + q < 2047 * 2 ^ 52) :
    (b64Value v).natAbs = q * 2 ^ k ∧ b64Significand v % 2 = q % 2 := by
  have hexp : b64Exponent v = (k * 2 ^ 52 + q) / 2 ^ 52 := by
    rw [hv, b64Exponent_ofNat]
    omega
  have hfrac : (v.extractLsb' 0 52).toNat = q % 2 ^ 52 := by
    rw [hv, BitVec.extractLsb'_toNat, BitVec.toNat_ofNat, Nat.shiftRight_zero]
    omega
  rw [natAbs_b64Value, b64Scale, b64Significand, hfrac, hexp]
  rcases Nat.lt_or_ge q (2 ^ 52) with hsub | hnorm
  · obtain rfl : k = 0 := by omega
    have h0 : (0 * 2 ^ 52 + q) / 2 ^ 52 = 0 := by omega
    rw [h0, if_pos rfl, Nat.mod_eq_of_lt hsub]
    exact ⟨rfl, rfl⟩
  · rcases hq.lt_or_eq with hlt | rfl
    · have h1 : (k * 2 ^ 52 + q) / 2 ^ 52 = k + 1 := by omega
      have h2 : q % 2 ^ 52 + 2 ^ 52 = q := by omega
      rw [h1, if_neg k.succ_ne_zero, h2]
      exact ⟨rfl, rfl⟩
    · have h1 : (k * 2 ^ 52 + 2 ^ 53) / 2 ^ 52 = k + 2 := by omega
      rw [h1, if_neg (by omega)]
      refine ⟨?_, rfl⟩
      rw [show k + 2 - 1 = k + 1 by omega]
      ring

section Result
variable {num : Int} {den : Nat}

theorem rne64_sign (hfin : rneMagnitude num.natAbs den < 2047 * 2 ^ 52) :
    (rne64 num den).getLsbD 63 = decide (num < 0) := by
  rw [rne64, BitVec.getLsbD_ofNat, Nat.testBit_eq_decide_div_mod_eq]
  split <;> simp [*] <;> omega

/-- `rne64` is the point of the grid nearest to the quotient. -/
theorem rne64_magnitude (hden : 0 < den) (hfin : rneMagnitude num.natAbs den < 2047 * 2 ^ 52) :
    ∃ q : Nat, isNearestInt (num.natAbs * b64Unit : Nat) (den * 2 ^ rneScale num.natAbs den) q ∧
      (b64Value (rne64 num den)).natAbs = q * 2 ^ rneScale num.natAbs den ∧
      b64Significand (rne64 num den) % 2 = q % 2 := by
  have hunit : 0 < den * 2 ^ rneScale num.natAbs den := Nat.mul_pos hden (Nat.two_pow_pos _)
  refine ⟨_, roundHalfEvenNat_isNearestInt _ hunit, ?_⟩
  have hmag : rneMagnitude num.natAbs den = rneScale num.natAbs den * 2 ^ 52 +
      roundHalfEvenNat (num.natAbs * b64Unit) (den * 2 ^ rneScale num.natAbs den) := by
    simp only [rneMagnitude] at hfin ⊢
    omega
  refine grid_fields (by rw [rne64, hmag]) (by split <;> simp) (roundHalfEvenNat_rneScale_le _ _) (fun hk => ?_)
    (hmag ▸ hfin)
  have hle := le_of_rneScale_pos hden hk
  exact ((Nat.le_div_iff_mul_le hunit).mpr hle).trans (div_le_roundHalfEvenNat _ _)

/-- No binary64 has a magnitude nearer to the quotient's, and one as near is the same or leaves an even significand. -/
theorem rne64_magnitude_le (hden : 0 < den) (hfin : rneMagnitude num.natAbs den < 2047 * 2 ^ 52) (w : Binary64) :
    (((num.natAbs * b64Unit : Nat) : Int) - ((b64Value (rne64 num den)).natAbs * den : Nat)).natAbs ≤
        (((num.natAbs * b64Unit : Nat) : Int) - ((b64Value w).natAbs * den : Nat)).natAbs ∧
      ((((num.natAbs * b64Unit : Nat) : Int) - ((b64Value w).natAbs * den : Nat)).natAbs =
          (((num.natAbs * b64Unit : Nat) : Int) - ((b64Value (rne64 num den)).natAbs * den : Nat)).natAbs →
        (b64Value w).natAbs = (b64Value (rne64 num den)).natAbs ∨ b64Significand (rne64 num den) % 2 = 0) := by
  obtain ⟨q, hq, hval, hpar⟩ := rne64_magnitude hden hfin
  rw [hval, hpar, natAbs_b64Value w]
  exact grid_le hq (fun h => le_of_rneScale_pos hden (Nat.zero_lt_of_lt h)) hden (b64Significand_lt w)

theorem rne64_distance (hfin : rneMagnitude num.natAbs den < 2047 * 2 ^ 52) :
    (b64Value (rne64 num den) * den - num * b64Unit).natAbs =
      (((num.natAbs * b64Unit : Nat) : Int) - ((b64Value (rne64 num den)).natAbs * den : Nat)).natAbs := by
  rw [distance_eq, if_pos (rne64_sign hfin)]

theorem rne64_isNearest (hden : 0 < den) (hfin : rneMagnitude num.natAbs den < 2047 * 2 ^ 52) :
    isNearest num den (rne64 num den) := by
  refine ⟨rne64_finite hfin, fun w _ => ?_⟩
  obtain ⟨hle, -⟩ := rne64_magnitude_le hden hfin w
  rw [rne64_distance hfin, distance_eq w]
  split <;> omega

/-- R12, for a quotient that does not round to infinity. Of two nearest values with the same sign the magnitudes tie on
the grid; with the signs apart only the two zeros can tie. -/
theorem rne64_isRne64 (hden : 0 < den) (hfin : rneMagnitude num.natAbs den < 2047 * 2 ^ 52) :
    isRne64 num den (rne64 num den) := by
  have hnearest := rne64_isNearest hden hfin
  refine ⟨hnearest, fun w ⟨hwfin, hw⟩ hne => ?_⟩
  have heq := (hw _ (rne64_finite hfin)).antisymm (hnearest.2 w hwfin)
  obtain ⟨-, htie⟩ := rne64_magnitude_le hden hfin w
  rw [rne64_distance hfin, distance_eq w] at heq
  split at heq
  case isTrue hsame =>
    refine (htie heq).resolve_left fun hmag => hne ?_
    exact eq_of_natAbs_b64Value_eq (hsame.trans (rne64_sign hfin).symm) hmag
  case isFalse =>
    have hle := (rne64_magnitude_le hden hfin 0#64).1
    have hzero : (b64Value 0#64).natAbs = 0 := rfl
    rw [hzero, Nat.zero_mul] at hle
    have hw0 : (b64Value w).natAbs = 0 := (Nat.mul_eq_zero.mp (by omega)).resolve_right hden.ne'
    rw [hw0, Nat.zero_mul] at htie heq
    refine (htie (by omega)).elim (fun hmag => ?_) id
    rw [natAbs_b64Value, eq_comm, Nat.mul_eq_zero] at hmag
    rw [hmag.resolve_right (Nat.two_pow_pos _).ne']

end Result

/-- Settles O12: the ranges of R7 keep the quotient far below infinity. -/
theorem normRoundsTheExactQuotientOnce : Obligations.NormRoundsTheExactQuotientOnce := by
  intro a n hn hmin _ hlt
  have hsmall : (n - a.minInput).natAbs < 2 ^ 32 := by omega
  have hmag := rneMagnitude_le hsmall (a.maxInput - a.minInput).toNat
  exact ⟨norm_finite hmin hn, rne64_isRne64 (by omega) (by omega)⟩

end Sys2Proof.Machine
end

