-- ==== Sys2Proof/Proofs/ReportEncoder.lean ====
section
/-! PROOFS. ENCODE, SHOULD_SEND and COMMIT_SENT on written registers (41_report_encoder.md R120 to R129): the bits and bytes
of REPORT, and the decision as an inequality of REPORT and SHADOW. -/

namespace Sys2Proof.Machine

/-! ### The commands, once their register is written -/

theorem exec_encode_of_sample {s : State} {x : Sample} (h : s.sample = some x) :
    exec .encode s = .next (s.writeReport (encodeReport s.cfg x)).complete := by
  simp only [exec, execEncode, h]

theorem exec_shouldSend_of_report {s : State} {r : List Byte} (h : s.report = some r) (force : Bool) :
    exec (.shouldSend force) s =
      .next (s.writeSend (sendDecision force s.cfg.reportByteCount r s.shadow)).complete := by
  simp only [exec, execShouldSend, h]

theorem exec_commitSent_of_report {s : State} {r : List Byte} (h : s.report = some r) :
    exec .commitSent s = .next (s.writeShadow r).complete := by
  simp only [exec, execCommitSent, h]

/-! ### ENCODE -/

theorem getLsbD_one_shiftLeft {i : Nat} (hi : i < 8) (n : Nat) : (1#8 <<< n).getLsbD i = decide (i = n) := by
  rw [BitVec.getLsbD_shiftLeft, BitVec.getLsbD_one]
  rcases lt_trichotomy i n with hlt | rfl | hgt
  · simp [hlt, hlt.ne]
  · simp [hi]
  · simp [hgt.ne', Nat.sub_ne_zero_of_lt hgt]

/-- Bits set one after the other, from bit 0 up. -/
theorem getLsbD_foldl_setBits (p : Nat → Bool) (n : Nat) {i : Nat} (hi : i < 8) :
    ((List.range n).foldl (fun byte b => if p b then byte ||| (1#8 <<< b) else byte) 0#8).getLsbD i =
      (decide (i < n) && p i) := by
  induction n with
  | zero => simp
  | succ n ih =>
    rw [List.range_succ, List.foldl_append, List.foldl_cons, List.foldl_nil]
    have hlt : decide (i < n + 1) = (decide (i < n) || decide (i = n)) := by
      simp only [Nat.lt_succ_iff_lt_or_eq, Bool.decide_or]
    rw [hlt]
    rcases eq_or_ne i n with rfl | hne
    · cases hp : p i <;> simp [ih, getLsbD_one_shiftLeft hi]
    · split <;> simp [ih, getLsbD_one_shiftLeft hi, hne]

/-- R121, for one button byte. -/
theorem getLsbD_buttonByte (buttonCount : Nat) (btn : List Bool) (k : Nat) {b : Nat} (hb : b < 8) :
    (buttonByte buttonCount btn k).getLsbD b =
      if 8 * k + b < buttonCount then btn.getD (8 * k + b) false else false := by
  rw [buttonByte, getLsbD_foldl_setBits (fun b => decide (8 * k + b < buttonCount) && btn.getD (8 * k + b) false) 8 hb]
  simp [hb]

theorem encodeReport_getD_button (c : Config) (x : Sample) {k : Nat} (hk : k < c.buttonByteCount) :
    (encodeReport c x).getD k 0#8 = buttonByte c.buttonCount x.btn k := by
  simp [encodeReport, List.getElem?_append_left, hk]

theorem encodeReport_getElem?_axis (c : Config) (x : Sample) (j : Nat) :
    (encodeReport c x)[c.buttonByteCount + j]? = x.axis[j]?.map axisByte := by
  simp [encodeReport, List.getElem?_append_right]

/-- The record enters by BUTTON_COUNT only (R125). -/
theorem encodeReport_congr {c d : Config} (h : c.buttonCount = d.buttonCount) (x : Sample) :
    encodeReport c x = encodeReport d x := by
  simp only [encodeReport, Config.buttonByteCount, h]

/-- Settles O14: the buttons' bytes bit by bit, then the axes' bytes past them. -/
theorem encodePacksButtonsThenAxes : Obligations.EncodePacksButtonsThenAxes := by
  intro s x _ hx _ haxis
  refine ⟨encodeReport s.cfg x, exec_encode_of_sample hx, encodeReport_length haxis, fun k hk b hb => ?_, fun j _ => ?_⟩
  · rw [encodeReport_getD_button s.cfg x hk, getLsbD_buttonByte _ _ _ hb]
  · exact encodeReport_getElem?_axis s.cfg x j

/-- Settles O15: both REPORTs are `encodeReport` of the sample. -/
theorem encodeDependsOnTheSampleAlone : Obligations.EncodeDependsOnTheSampleAlone := by
  intro s t s' t' x hs ht hcount hs' ht'
  rw [exec_encode_of_sample hs] at hs'
  rw [exec_encode_of_sample ht] at ht'
  cases hs'
  cases ht'
  exact ⟨congrArg some (encodeReport_congr hcount x), nofun⟩

/-! ### SHOULD_SEND and COMMIT_SENT -/

/-- Two reports of one length differ iff some byte differs. -/
theorem any_getElem?_ne {n : Nat} {r sh : List Byte} (hr : r.length = n) (hsh : sh.length = n) :
    (List.range n).any (fun k => r[k]? != sh[k]?) = decide (sh ≠ r) := by
  by_cases h : sh = r
  · simp [h]
  · have hdiff : ∃ k, r[k]? ≠ sh[k]? := not_forall.mp fun hall => h (List.ext_getElem? hall).symm
    obtain ⟨k, hk⟩ := hdiff
    have hkn : k < n := by
      by_contra hge
      exact hk (by rw [List.getElem?_eq_none (by omega), List.getElem?_eq_none (by omega)])
    simpa [h] using ⟨k, hkn, hk⟩

/-- R126 to R128 in one condition. -/
theorem sendDecision_eq (force : Bool) {n : Nat} {r : List Byte} {shadow : Option (List Byte)} (hr : r.length = n)
    (hsh : ∀ sh, shadow = some sh → sh.length = n) :
    sendDecision force n r shadow = decide (force = true ∨ shadow ≠ some r) := by
  cases force with
  | true => simp [sendDecision]
  | false =>
    cases shadow with
    | none => simp [sendDecision]
    | some sh => simp [sendDecision, any_getElem?_ne hr (hsh sh rfl)]

/-- Settles O18: SEND is `sendDecision`, rewritten. -/
theorem shouldSendComparesWithTheCommitted : Obligations.ShouldSendComparesWithTheCommitted := by
  intro s r force _ hreport hr hsh
  rw [exec_shouldSend_of_report hreport, sendDecision_eq force hr hsh]
  rfl

/-- Settles O19: the second COMMIT_SENT finds the same REPORT. -/
theorem commitCopiesTheReport : Obligations.CommitCopiesTheReport := fun _ _ _ hreport =>
  ⟨exec_commitSent_of_report hreport, exec_commitSent_of_report hreport⟩

/-- Settles O20: the committed report is SHADOW, so the decision compares with it. -/
theorem committedReportIsSuppressed : Obligations.CommittedReportIsSuppressed := by
  intro s s1 r hreport hr hcommit
  rw [exec_commitSent_of_report hreport] at hcommit
  cases hcommit
  have hshadow : ∀ sh, some r = some sh → sh.length = s.cfg.reportByteCount := by rintro _ ⟨⟩; exact hr
  have hreport1 : (s.writeShadow r).complete.report = some r := hreport
  refine ⟨⟨_, exec_shouldSend_of_report hreport1 false, ?_⟩, fun r' hr' hne =>
    ⟨_, exec_shouldSend_of_report rfl false, ?_⟩⟩
  · exact (sendDecision_eq false hr hshadow).trans (by simp)
  · exact (sendDecision_eq false hr' hshadow).trans (by simpa using hne.symm)

end Sys2Proof.Machine
end

