-- ==== Sys2Proof/Proofs/AxisByte.lean ====
section
/-! PROOFS. The axis byte (41_report_encoder.md R122, R123, R133): both roundings are the nearest ones, and a rounding moves
no value past one that it represents exactly, so in calibration the product stays in 0..255. -/

namespace Sys2Proof.Machine

/-! ### The nearest integer, with sign -/

theorem isNearestInt_neg {x : Int} {u : Nat} {r : Int} (h : isNearestInt x u r) : isNearestInt (-x) u (-r) := by
  have hneg : -x - -r * u = -(x - r * u) := by ring
  rw [isNearestInt, hneg, Int.natAbs_neg]
  obtain ⟨hhalf, htie⟩ := h
  exact ⟨hhalf, fun heq => by have := htie heq; omega⟩

theorem roundHalfEvenInt_isNearestInt (x : Int) {u : Nat} (hu : 0 < u) : isNearestInt x u (roundHalfEvenInt x u) := by
  have hmag := roundHalfEvenNat_isNearestInt x.natAbs hu
  unfold roundHalfEvenInt
  split
  next hneg =>
    rw [Int.ofNat_natAbs_of_nonpos hneg.le] at hmag
    simpa using isNearestInt_neg hmag
  next hpos => rwa [Int.natAbs_of_nonneg (not_lt.mp hpos)] at hmag

theorem roundHalfEven_isNearestInt (p : Binary64) : isNearestInt (b64Value p) b64Unit (roundHalfEven p) :=
  roundHalfEvenInt_isNearestInt _ b64Unit_pos

/-! ### A rounding does not pass a value it represents -/

theorem le_nearestInt_of_le {x : Int} {u : Nat} {r k : Int} (hu : 0 < u) (h : isNearestInt x u r) (hk : k * u ≤ x) :
    k ≤ r := by
  by_contra hlt
  obtain ⟨hnear, -⟩ := isNearestInt_le h k
  have hmul : r * u < k * u := by gcongr; omega
  omega

theorem nearestInt_le_of_le {x : Int} {u : Nat} {r k : Int} (hu : 0 < u) (h : isNearestInt x u r) (hk : x ≤ k * u) :
    r ≤ k := by
  have hneg := le_nearestInt_of_le hu (isNearestInt_neg h) (k := -k) (by rw [Int.neg_mul]; omega)
  omega

theorem b64Value_le_of_isNearest {num : Int} {den : Nat} {p w : Binary64} (hden : 0 < den) (h : isNearest num den p)
    (hw : b64Finite w = true) (hle : num * b64Unit ≤ b64Value w * den) : b64Value p ≤ b64Value w := by
  by_contra hlt
  obtain ⟨-, hall⟩ := h
  have hnear := hall w hw
  have hmul : b64Value w * den < b64Value p * den := by gcongr; omega
  omega

theorem le_b64Value_of_isNearest {num : Int} {den : Nat} {p w : Binary64} (hden : 0 < den) (h : isNearest num den p)
    (hw : b64Finite w = true) (hle : b64Value w * den ≤ num * b64Unit) : b64Value w ≤ b64Value p := by
  by_contra hlt
  obtain ⟨-, hall⟩ := h
  have hnear := hall w hw
  have hmul : b64Value p * den < b64Value w * den := by gcongr; omega
  omega

/-! ### The product and the byte -/

/-- The scale of a quotient below 2^m, written in units of 2^-1074. -/
theorem rneScale_b64Unit_le {n m : Nat} (hn : n < 2 ^ m * b64Unit) : rneScale n b64Unit ≤ m + 1021 := by
  have hpow : n < 2 ^ (m + 1074) :=
    calc n < 2 ^ m * b64Unit := hn
      _ = 2 ^ (m + 1074) := by rw [b64Unit, Nat.pow_add]
  rw [rneScale, Nat.mul_div_cancel _ b64Unit_pos]
  rcases Nat.eq_zero_or_pos n with rfl | hpos
  · rw [Nat.log2_zero]
    omega
  · have := (Nat.log2_lt hpos.ne').mpr hpow
    omega

/-- Values up to 2^33 keep the product far below infinity. -/
theorem rneMagnitude_axisProduct_lt {v : Binary64} (hv : (b64Value v).natAbs ≤ 2 ^ 33 * b64Unit) :
    rneMagnitude (255 * b64Value v).natAbs b64Unit < 2047 * 2 ^ 52 := by
  have hunit := b64Unit_pos
  have hlt : (255 * b64Value v).natAbs < 2 ^ 41 * b64Unit := by omega
  have hscale := rneScale_b64Unit_le hlt
  have hmag := rneMagnitude_le_scale (255 * b64Value v).natAbs b64Unit
  omega

theorem axisProduct_isRne64 {v : Binary64} (hv : (b64Value v).natAbs ≤ 2 ^ 33 * b64Unit) :
    isRne64 (255 * b64Value v) b64Unit (axisProduct v) :=
  rne64_isRne64 b64Unit_pos (rneMagnitude_axisProduct_lt hv)

theorem axisByte_of_finite {v : Binary64} (hfin : b64Finite v = true) (hv : (b64Value v).natAbs ≤ 2 ^ 33 * b64Unit) :
    axisByte v = u8 (roundHalfEven (axisProduct v) - 128) := by
  obtain ⟨⟨hprod, -⟩, -⟩ := axisProduct_isRne64 hv
  rw [axisByte, hfin, hprod, Bool.and_self, if_pos rfl]

theorem u8_toNat (x : Int) : ((u8 x).toNat : Int) = x % 256 := by
  rw [u8, BitVec.toNat_ofInt]
  omega

theorem s8_u8 {x : Int} (hlo : -128 ≤ x) (hhi : x ≤ 127) : s8 (u8 x) = x := by
  rw [s8, u8, BitVec.toInt_ofInt]
  exact Int.bmod_eq_of_le (by omega) (by omega)

/-- Settles O16: the product is its `rne64`, and r its `roundHalfEven`. -/
theorem axisByteRoundsTwiceAndWraps : Obligations.AxisByteRoundsTwiceAndWraps := fun v hfin hv =>
  ⟨axisProduct v, roundHalfEven (axisProduct v), axisProduct_isRne64 hv, roundHalfEven_isNearestInt _,
    by rw [axisByte_of_finite hfin hv, u8_toNat]⟩

/-- The binary64 255, an end of the product's range in calibration. -/
theorem b64Value_255 : b64Value 0x406FE00000000000#64 = 255 * b64Unit := by decide +kernel

/-- R133: 0 and 255 are binary64 values, so the product's rounding stays between them. -/
theorem axisProduct_range {v : Binary64} (h0 : 0 ≤ b64Value v) (h1 : b64Value v ≤ b64Unit) :
    0 ≤ b64Value (axisProduct v) ∧ b64Value (axisProduct v) ≤ 255 * b64Unit := by
  obtain ⟨hnear, -⟩ := axisProduct_isRne64 (v := v) (by omega)
  constructor
  · have hzero : b64Value 0#64 = 0 := rfl
    rw [← hzero]
    refine le_b64Value_of_isNearest b64Unit_pos hnear rfl ?_
    rw [hzero, Int.zero_mul]
    exact Int.mul_nonneg (by omega) (Int.natCast_nonneg _)
  · rw [← b64Value_255]
    refine b64Value_le_of_isNearest b64Unit_pos hnear rfl ?_
    rw [b64Value_255]
    exact Int.mul_le_mul_of_nonneg_right (by omega) (Int.natCast_nonneg _)

/-- Settles O17: the product stays in 0..255, so its nearest integer does; the two ends are evaluated. -/
theorem axisByteInCalibrationNeverWraps : Obligations.AxisByteInCalibrationNeverWraps := by
  refine ⟨fun v hfin h0 h1 => ?_, by decide +kernel, by decide +kernel⟩
  have hnear := roundHalfEven_isNearestInt (axisProduct v)
  obtain ⟨hp0, hp255⟩ := axisProduct_range h0 h1
  have hr0 := le_nearestInt_of_le b64Unit_pos hnear (k := 0) (by omega)
  have hr255 := nearestInt_le_of_le b64Unit_pos hnear hp255
  refine ⟨_, hnear, hr0, hr255, ?_⟩
  rw [axisByte_of_finite hfin (by omega), s8_u8 (by omega) (by omega)]

end Sys2Proof.Machine
end

