-- ==== Sys2Proof/Proofs/CommitDuty.lean ====
section
/-! PROOFS. The HOST's commit duty (41_report_encoder.md R130; 60_exceptions.md R213; 70_reset_and_hazards.md R237, R238):
every act that keeps the duty keeps `HostWorld.dutyInv`, so every row of acts does. -/

namespace Sys2Proof.Machine

/-! ### A command the HOST presents -/

theorem takeCommand_withNextCommand (s : State) (c : Command) : (s.withNextCommand c).takeCommand = s := rfl

/-- R203, R205: a command presented to a faulted block is refused, to a usable one it is executed. -/
theorem step_withNextCommand (s : State) (i : Instr) :
    step (s.withNextCommand (encodeCommand i)) = if s.result = .faulted then .next s else exec i s := by
  split
  next hf =>
    simp only [step, State.issueNext, withNextCommand_commands, withNextCommand_result, hf, if_true,
      takeCommand_withNextCommand]
  next hu =>
    have hissued : (s.withNextCommand (encodeCommand i)).usable := hu
    rw [step_of_decode hissued (withNextCommand_commands s _) (decodeOfEncodeIsTheInstruction i),
      takeCommand_withNextCommand]

theorem act_command_cases {w w' : HostWorld} {i : Instr} (h : w.act (.command i) = some w') :
    (w.block.result = .faulted ∧ w' = w) ∨
      (w.block.usable ∧ ∃ t, exec i w.block = .next t ∧ w' = { w with block := t }) := by
  rw [HostWorld.act, step_withNextCommand] at h
  by_cases hf : w.block.result = .faulted
  · rw [if_pos hf] at h
    cases h
    exact .inl ⟨hf, rfl⟩
  · rw [if_neg hf] at h
    cases ht : exec i w.block with
    | next t => rw [ht] at h; cases h; exact .inr ⟨hf, t, rfl, rfl⟩
    | fault f => rw [ht] at h; cases h
    | refused f => rw [ht] at h; cases h

theorem act_deliver_eq {w w' : HostWorld} (h : w.act .deliver = some w') :
    w' = { w with received := w.block.report } := by
  unfold HostWorld.act at h
  cases hr : w.block.report with
  | none => simp only [hr] at h; cases h
  | some r => simp only [hr] at h; cases h; rfl

theorem exec_report_of_ne {i : Instr} {s t : State} (h : exec i s = .next t) (hi : i ≠ .encode) : t.report = s.report := by
  obtain ⟨-, hreport, -⟩ := eachRegisterHasItsOwnWriters i s t h
  exact not_not.mp fun hne => hi (hreport hne)

theorem exec_shadow_of_ne {i : Instr} {s t : State} (h : exec i s = .next t) (hi : i ≠ .commitSent) :
    t.shadow = s.shadow := by
  obtain ⟨-, -, hshadow, -⟩ := eachRegisterHasItsOwnWriters i s t h
  exact not_not.mp fun hne => hi (hshadow hne)

/-! ### The duty -/

theorem commitDuty_commitSent {owed owed' : Bool} (h : commitDuty owed (.command .commitSent) = some owed') :
    owed = true ∧ owed' = false := by
  cases owed <;> cases h
  exact ⟨rfl, rfl⟩

theorem commitDuty_encode {owed owed' : Bool} (h : commitDuty owed (.command .encode) = some owed') :
    owed = false ∧ owed' = false := by
  cases owed <;> cases h
  exact ⟨rfl, rfl⟩

theorem commitDuty_deliver {owed owed' : Bool} (h : commitDuty owed .deliver = some owed') :
    owed = false ∧ owed' = true := by
  cases owed <;> cases h
  exact ⟨rfl, rfl⟩

theorem commitDuty_command_of_ne {i : Instr} (hc : i ≠ .commitSent) (he : i ≠ .encode) (owed : Bool) :
    commitDuty owed (.command i) = some owed := by
  cases i with
  | commitSent => exact absurd rfl hc
  | encode => exact absurd rfl he
  | _ => rfl

/-- An executed command keeps the invariant: COMMIT_SENT moves REPORT to SHADOW as the duty moves, ENCODE comes with
nothing owed, and no other command writes either register. -/
theorem exec_dutyInv {w : HostWorld} {t : State} {i : Instr} {owed owed' : Bool} (hu : w.block.usable)
    (hinv : w.dutyInv owed) (h : exec i w.block = .next t) (hduty : commitDuty owed (.command i) = some owed') :
    ({ w with block := t } : HostWorld).dutyInv owed' := by
  have hkept := hinv hu
  intro ht
  by_cases hc : i = .commitSent
  · subst hc
    obtain ⟨rfl, rfl⟩ := commitDuty_commitSent hduty
    rcases execCommitSent_cases h with ⟨-, rfl⟩ | ⟨r, hr, rfl⟩
    · exact absurd rfl ht
    · exact hkept.trans hr
  have hshadow := exec_shadow_of_ne h hc
  by_cases he : i = .encode
  · subst he
    obtain ⟨rfl, rfl⟩ := commitDuty_encode hduty
    exact hkept.trans hshadow.symm
  · rw [commitDuty_command_of_ne hc he, Option.some_inj] at hduty
    subst hduty
    show if owed then w.received = t.report else w.received = t.shadow
    rwa [hshadow, exec_report_of_ne h he]

/-- Settles O46, by the HOST's acts. -/
theorem everyDutifulActKeepsTheDutyInvariant : Obligations.EveryDutifulActKeepsTheDutyInvariant := by
  intro w w' owed owed' a hinv hact hduty
  cases a with
  | command i =>
    rcases act_command_cases hact with ⟨hf, rfl⟩ | ⟨hu, t, ht, rfl⟩
    · exact fun hu => absurd hf hu
    · exact exec_dutyInv hu hinv ht hduty
  | deliver =>
    obtain ⟨-, rfl⟩ := commitDuty_deliver hduty
    rw [act_deliver_eq hact]
    exact fun _ => rfl
  | sendFails =>
    cases hact
    cases hduty
    exact hinv

theorem acts_dutyInv {as : List HostAct} {w w' : HostWorld} {owed owed' : Bool} (hinv : w.dutyInv owed)
    (hacts : w.acts as = some w') (hduty : commitDutyKept owed as = some owed') : w'.dutyInv owed' := by
  induction as generalizing w owed with
  | nil =>
    cases hacts
    cases hduty
    exact hinv
  | cons a as ih =>
    unfold HostWorld.acts at hacts
    unfold commitDutyKept at hduty
    split at hacts
    · next w1 hw1 =>
      split at hduty
      · next owed1 howed1 =>
        exact ih (everyDutifulActKeepsTheDutyInvariant w w1 owed owed1 a hinv hw1 howed1) hacts hduty
      · cases hduty
    · cases hacts

/-- Settles O45: the invariant at both ends of the acts, with nothing owed. -/
theorem shadowIsWhatTheUsbHostReceived : Obligations.ShadowIsWhatTheUsbHostReceived :=
  fun _ _ _ hshadow hacts hduty hu => (acts_dutyInv (owed := false) (fun _ => hshadow.symm) hacts hduty hu).symm

end Sys2Proof.Machine
end

