-- ==== Sys2Proof/Proofs/Render.lean ====
section
/-! PROOFS. RENDER and PUT_RAW (42_glyph_render.md). A text is read position by position, each a ".", a character that
absorbs the "." after it, or a character alone (R156 to R158); the scan, the two-state machine of R162 and `vis` (R163) have
one equation per kind of position, and one induction over the positions compares them. -/

namespace Sys2Proof.Machine

/-! ### The positions of a text -/

/-- Induction over the positions at which a scan of the text arrives. -/
theorem positions_induction {P : List Byte → Prop} (nil : P []) (point : ∀ rest, P rest → P (dotChar :: rest))
    (merged : ∀ c rest, c ≠ dotChar → P rest → P (c :: dotChar :: rest))
    (plain : ∀ c rest, c ≠ dotChar → rest.head? ≠ some dotChar → P rest → P (c :: rest)) (text : List Byte) : P text := by
  induction text using visibleCells.induct with
  | case1 => exact nil
  | case2 c =>
    by_cases hc : c = dotChar
    · exact hc ▸ point [] nil
    · exact plain c [] hc (by simp) nil
  | case3 c d rest h ih =>
    obtain ⟨hc, rfl⟩ := h
    exact merged c rest hc ih
  | case4 c d rest h ih =>
    by_cases hc : c = dotChar
    · exact hc ▸ point _ ih
    · exact plain c _ hc (fun hd => h ⟨hc, Option.some.inj hd⟩) ih

section Positions
variable (cfg : Config) (room : Nat) {c : Byte} {rest : List Byte}

@[simp] theorem visibleCells_nil : visibleCells [] = 0 := rfl

@[simp] theorem visibleCells_point (rest : List Byte) : visibleCells (dotChar :: rest) = visibleCells rest + 1 := by
  cases rest <;> simp [visibleCells, Nat.add_comm]

@[simp] theorem visibleCells_merged (hc : c ≠ dotChar) (rest : List Byte) :
    visibleCells (c :: dotChar :: rest) = visibleCells rest + 1 := by
  simp [visibleCells, hc, Nat.add_comm]

@[simp] theorem visibleCells_plain (hrest : rest.head? ≠ some dotChar) :
    visibleCells (c :: rest) = visibleCells rest + 1 := by
  cases rest with
  | nil => rfl
  | cons d rest =>
    have hd : d ≠ dotChar := fun hd => hrest (congrArg some hd)
    simp [visibleCells, hd, Nat.add_comm]

@[simp] theorem renderScan_no_room (text : List Byte) : renderScan cfg 0 text = [] := rfl

@[simp] theorem renderScan_nil : renderScan cfg room [] = [] := by cases room <;> rfl

@[simp] theorem renderScan_point (rest : List Byte) :
    renderScan cfg (room + 1) (dotChar :: rest) = dot :: renderScan cfg room rest := by
  simp [renderScan]

@[simp] theorem renderScan_merged (hc : c ≠ dotChar) (rest : List Byte) :
    renderScan cfg (room + 1) (c :: dotChar :: rest) = (cfg.glyphOf c ||| dot) :: renderScan cfg room rest := by
  simp [renderScan, hc]

@[simp] theorem renderScan_plain (hc : c ≠ dotChar) (hrest : rest.head? ≠ some dotChar) :
    renderScan cfg (room + 1) (c :: rest) = cfg.glyphOf c :: renderScan cfg room rest := by
  cases rest with
  | nil => simp [renderScan, hc]
  | cons d rest =>
    have hd : d ≠ dotChar := fun hd => hrest (congrArg some hd)
    simp [renderScan, hc, hd]

@[simp] theorem renderMachine_no_room (text : List Byte) : renderMachine cfg .normal 0 text = [] := by
  cases text <;> simp [renderMachine]

@[simp] theorem renderMachine_point (rest : List Byte) :
    renderMachine cfg .normal (room + 1) (dotChar :: rest) = dot :: renderMachine cfg .normal room rest := by
  simp [renderMachine]

/-- R162's two steps over a character and the point it absorbs. -/
@[simp] theorem renderMachine_merged (hc : c ≠ dotChar) (rest : List Byte) :
    renderMachine cfg .normal (room + 1) (c :: dotChar :: rest) =
      (cfg.glyphOf c ||| dot) :: renderMachine cfg .normal room rest := by
  simp [renderMachine, hc]

@[simp] theorem renderMachine_plain (hc : c ≠ dotChar) (hrest : rest.head? ≠ some dotChar) :
    renderMachine cfg .normal (room + 1) (c :: rest) = cfg.glyphOf c :: renderMachine cfg .normal room rest := by
  simp [renderMachine, hc, hrest]

end Positions

/-! ### The scan -/

theorem renderScan_eq_renderMachine (cfg : Config) (room : Nat) (text : List Byte) :
    renderScan cfg room text = renderMachine cfg .normal room text := by
  induction text using positions_induction generalizing room with
  | nil => simp [renderMachine]
  | point rest ih => cases room <;> simp [ih]
  | merged c rest hc ih => cases room <;> simp [hc, ih]
  | plain c rest hc hrest ih => cases room <;> simp [hc, hrest, ih]

theorem renderScan_length (cfg : Config) (room : Nat) (text : List Byte) :
    (renderScan cfg room text).length = min room (visibleCells text) := by
  induction text using positions_induction generalizing room with
  | nil => simp
  | point rest ih => cases room <;> simp [ih]
  | merged c rest hc ih => cases room <;> simp [hc, ih]
  | plain c rest hc hrest ih => cases room <;> simp [hc, hrest, ih]

/-- R159. With a visible cell to spare the scan ends inside the text, and the character it emits last is followed by one of
the text's own, so nothing after the text can be merged into it. -/
theorem renderScan_append (cfg : Config) {room : Nat} {text : List Byte} (extra : List Byte)
    (h : room < visibleCells text) : renderScan cfg room (text ++ extra) = renderScan cfg room text := by
  induction text using positions_induction generalizing room with
  | nil => exact absurd h (Nat.not_lt_zero room)
  | point rest ih =>
    cases room with
    | zero => rfl
    | succ room => simp [ih (by simpa using h)]
  | merged c rest hc ih =>
    cases room with
    | zero => rfl
    | succ room => simp [hc, ih (by simpa [hc] using h)]
  | plain c rest hc hrest ih =>
    cases room with
    | zero => rfl
    | succ room =>
      have hroom : room < visibleCells rest := by simpa [hrest] using h
      have hne : rest ≠ [] := by rintro rfl; exact absurd hroom (Nat.not_lt_zero room)
      have hext : (rest ++ extra).head? ≠ some dotChar := by rwa [List.head?_append_of_ne_nil rest hne]
      rw [List.cons_append, renderScan_plain cfg room hc hext, renderScan_plain cfg room hc hrest, ih hroom]

/-! ### RENDER -/

theorem exec_render (s : State) (text : List Byte) :
    exec (.render text) s = .next (s.cellWrites 0 (renderScan s.cfg cellCount text)).complete := rfl

/-- RENDER changes the cells and how the last command ended, nothing else (R160, R161). -/
theorem exec_render_frame (s : State) (text : List Byte) :
    exec (.render text) s =
      .next { s with
        cells := (s.cellWrites 0 (renderScan s.cfg cellCount text)).cells, result := .ok, transientCause := .none } := by
  rw [exec_render, cellWrites_eq]
  rfl

/-- Settles O22: the scan emits what the machine emits, and the cell writes lay it out from cell 0 on. -/
theorem renderIsTheTwoStateMachine : Obligations.RenderIsTheTwoStateMachine := by
  intro s text _
  refine ⟨_, exec_render_frame s text, ?_, fun j hj => ?_⟩
  · rw [← renderScan_eq_renderMachine, renderScan_length]
  · rw [cellWrites_cell s 0 j _ hj, renderScan_length, renderScan_eq_renderMachine]
    simp [cellCount]

/-- Settles O23: the four cells leave one visible cell to spare. -/
theorem renderIgnoresWhatItDoesNotScan : Obligations.RenderIgnoresWhatItDoesNotScan := by
  intro s text extra h
  have hscan : renderScan s.cfg cellCount (text ++ extra) = renderScan s.cfg cellCount text :=
    renderScan_append s.cfg extra h
  rw [exec_render, exec_render, hscan]

/-! ### One cell -/

theorem cellWrite_eq_set (s : State) {i : Nat} (v : Byte) (h : i < 4) :
    s.cellWrite i v = { s with cells := s.cells.set i (some v) h } := by
  have hcells : s.cells.setIfInBounds i (some v) = s.cells.set i (some v) h := by
    ext j hj
    rw [Vector.getElem_setIfInBounds, Vector.getElem_set]
  rw [State.cellWrite, hcells]

/-- R151: a lookup miss. -/
theorem glyphOf_of_no_entry {cfg : Config} {c : Byte} (h : ∀ e ∈ cfg.glyph, e.1 ≠ c) : cfg.glyphOf c = 0x00#8 := by
  have hmiss : cfg.glyph.lookup c = none := List.lookup_eq_none_iff.mpr fun e he => by simpa using (h e he).symm
  rw [Config.glyphOf, hmiss, Option.getD_none]

/-- Settles O24: the text is one character alone, and its glyph is the blank one. -/
theorem lookupMissIsBlank : Obligations.LookupMissIsBlank := by
  intro s c _ hc hmiss
  have hscan : renderScan s.cfg cellCount [c] = [0x00#8] := by
    rw [cellCount, renderScan_plain s.cfg 3 hc (by simp), renderScan_nil, glyphOf_of_no_entry hmiss]
  calc exec (.render [c]) s = .next (s.cellWrite 0 0x00#8).complete := by rw [exec_render, hscan]; rfl
    _ = _ := by rw [cellWrite_eq_set s _ (by decide)]; rfl

/-! ### PUT_RAW -/

/-- The word as R154 gives it is the encoder's (R74). -/
theorem encodeWord_putRaw_one (idx val : Byte) :
    encodeWord (.putRaw 1#4 idx val) = 0x61000000#32 ||| (idx.setWidth 32 <<< 16) ||| val.setWidth 32 := by
  have hop : fieldAt 28 0x6#4 ||| fieldAt 24 1#4 = 0x61000000#32 := by decide
  have hval : fieldAt 0 val = val.setWidth 32 := BitVec.shiftLeft_zero _
  rw [encodeWord, wordP, hop, hval, fieldAt]

theorem decode_putRaw_one (idx val : Byte) :
    decode { word := 0x61000000#32 ||| (idx.setWidth 32 <<< 16) ||| val.setWidth 32 } = some (.putRaw 1#4 idx val) := by
  rw [← encodeWord_putRaw_one]
  exact decodeOfEncodeIsTheInstruction (.putRaw 1#4 idx val)

/-- PUT_RAW issues no transaction, so nothing keeps it from ending (R161). -/
theorem exec_putRaw_ends (s : State) (len : BitVec 4) (idx val : Byte) : ∃ t, exec (.putRaw len idx val) s = .next t := by
  show ∃ t, execPutRaw len idx val s = .next t
  rw [execPutRaw]
  split <;> exact ⟨_, rfl⟩

/-- Settles O26, by the three ends that the checks leave (R206). -/
theorem putRawWritesOneCell : Obligations.PutRawWritesOneCell := by
  intro s len idx val _
  refine ⟨decode_putRaw_one idx val, ?_⟩
  obtain ⟨t, ht⟩ := exec_putRaw_ends s len idx val
  rw [ht]
  rcases execPutRaw_cases ht with ⟨hidx, rfl⟩ | ⟨hidx, hlen, rfl⟩ | ⟨hidx, rfl, rfl⟩
  · rw [dif_neg (Nat.not_lt.mpr hidx), State.raiseFault]
  · rw [dif_pos hidx, if_neg hlen, State.raiseFault]
  · rw [dif_pos hidx, if_pos rfl, cellWrite_eq_set s val hidx, State.complete]

/-! ### GLYPH (R152) -/

/-- Settles O38: glyph lookups and CONFIG_INFO are functions of the record, which no run changes. -/
theorem noRunChangesTheConfiguration : Obligations.NoRunChangesTheConfiguration := by
  intro n s t h
  have hcfg := run_cfg h
  exact ⟨hcfg, fun c => congrArg (Config.glyphOf · c) hcfg, congrArg configInfoWord hcfg⟩

end Sys2Proof.Machine
end

