-- ==== Sys2Proof/Proofs/Transport.lean ====
section
/-! PROOFS. SHOW, CLEAR, INITIALIZE and SET_BLINK (43_display_transport.md R180 to R184): what a display write, or a
sequence of them, leaves for given answers of the bus, and from that the ends of each command. -/

namespace Sys2Proof.Machine

section Transport
variable {s : State}

/-! ### Display writes, answer by answer -/

theorem endDisplayWrite_of_ok {b : List Byte} {n : Int} (ha : s.answerAt 0 = .ok b n) (bytes : List Byte)
    (onOk : State → State) : endDisplayWrite (s.busWrite bytes) onOk = .next (onOk (s.afterBus 1 [.wr bytes])) := by
  rw [busWrite_eq, ha]
  rfl

theorem endDisplayWrite_of_err (ha : s.answerAt 0 = .err) (bytes : List Byte) (onOk : State → State) :
    endDisplayWrite (s.busWrite bytes) onOk =
      .next ((s.afterBus 1 [.wrErr bytes]).raiseTransient .displayWriteError) := by
  rw [busWrite_eq, ha]
  rfl

/-- The answers left once a display write that succeeded has used its own. -/
theorem busOk_tail {n : Nat} (h : s.busOk (n + 1)) (es : List BusEvent) : (s.afterBus 1 es).busOk n :=
  busOk_afterBus (Nat.add_comm n 1 ▸ h) es

theorem busWrites_of_busOk {ws : List (List Byte)} (h : s.busOk ws.length) :
    s.busWrites ws = .ok () (s.afterReads (ws.map .wr)) := by
  induction ws generalizing s with
  | nil => rfl
  | cons w ws ih =>
    obtain ⟨b, n, h0⟩ := h 0 ws.length.succ_pos
    simp only [State.busWrites, busWrite_eq, h0]
    rw [ih (busOk_tail h _), afterBus_afterReads, List.map_cons]

/-- R55, R183: the first failing write is recorded and ends the sequence. -/
theorem busWrites_of_err {ws : List (List Byte)} {k : Nat} (hk : k < ws.length) (h : s.busOk k)
    (he : s.answerAt k = .err) :
    s.busWrites ws = .err (s.afterBus (k + 1) ((ws.take k).map .wr ++ [.wrErr ws[k]])) := by
  induction ws generalizing s k with
  | nil => exact absurd hk (Nat.not_lt_zero k)
  | cons w ws ih =>
    cases k with
    | zero =>
      simp only [State.busWrites, busWrite_eq, he]
      rfl
    | succ k =>
      obtain ⟨b, n, h0⟩ := h 0 k.succ_pos
      have he' : (s.afterBus 1 [.wr w]).answerAt k = .err := by rwa [answerAt_afterBus, Nat.add_comm]
      simp only [State.busWrites, busWrite_eq, h0]
      rw [ih (Nat.lt_of_succ_lt_succ hk) (busOk_tail h _) he', afterBus_afterBus, Nat.add_comm 1]
      rfl

/-! ### The cleared cells -/

theorem busOk_clearCells {n : Nat} (h : s.busOk n) : s.clearCells.busOk n := fun k hk => by
  rw [clearCells_answerAt]
  exact h k hk

/-- The bus registers and the cells are disjoint, so the clearing can be read off after the transactions (R182, R209). -/
theorem clearCells_afterBus (s : State) (n : Nat) (es : List BusEvent) :
    s.clearCells.afterBus n es = { s.afterBus n es with cells := blankCells } := by
  rw [clearCells_eq]
  rfl

theorem blankFramebuffer_eq (c : Config) : blankFramebuffer c = [c.fbCmd, 0, 0, 0, 0] := rfl

/-! ### INITIALIZE -/

/-- The writes of INITIALIZE in issue order (R183). -/
def initWrites (c : Config) : List (List Byte) := [[c.fbCmd, 0, 0, 0, 0], c.cmdOscOn, c.cmdDisplayOn]

theorem execInitDisplay_eq (s : State) :
    execInitDisplay s = endDisplayWrite (s.clearCells.busWrites (initWrites s.cfg)) State.complete := rfl

theorem execInitDisplay_of_busOk (h : s.busOk 3) :
    execInitDisplay s = .next (s.clearCells.afterBus 3 ((initWrites s.cfg).map .wr)).complete := by
  have hok : s.clearCells.busOk (initWrites s.cfg).length := busOk_clearCells h
  rw [execInitDisplay_eq, busWrites_of_busOk hok]
  rfl

theorem execInitDisplay_of_err {k : Nat} (hk : k < 3) (h : s.busOk k) (he : s.answerAt k = .err) :
    execInitDisplay s =
      .next ((s.clearCells.afterBus (k + 1)
        (((initWrites s.cfg).take k).map .wr ++ [.wrErr ((initWrites s.cfg).getD k [])])).raiseTransient
          .displayWriteError) := by
  have hlen : k < (initWrites s.cfg).length := hk
  rw [execInitDisplay_eq, busWrites_of_err hlen (busOk_clearCells h) (by rwa [clearCells_answerAt]),
    List.getD_eq_getElem _ _ hlen]
  rfl

/-! ### SHOW -/

theorem execShowFb_of_cells {a b c d : Byte} (h : s.cells = #v[some a, some b, some c, some d]) :
    execShowFb s = endDisplayWrite (s.busWrite [s.cfg.fbCmd, a, b, c, d]) State.complete := by
  have hbytes : s.cellBytes = some [a, b, c, d] := by
    rw [State.cellBytes, h]
    rfl
  simp only [execShowFb, hbytes, framebuffer]

/-! ### CLEAR -/

theorem execClear_of_push {force : Bool} (h : s.cfg.autoWrite = true ∨ force = true) :
    execClear force s =
      endDisplayWrite (s.clearCells.busWrite [s.cfg.fbCmd, 0, 0, 0, 0]) State.complete := by
  rw [execClear, if_pos (Bool.or_eq_true_iff.mpr h), blankFramebuffer_eq]

theorem execClear_of_no_push (h : s.cfg.autoWrite = false) : execClear false s = .next s.clearCells.complete := by
  rw [execClear, h]
  rfl

/-! ### SET_BLINK -/

/-- A mode in range is its own low two bits (R75, R184). -/
theorem blinkOperand_of_lt {m : Byte} (h : m.toNat < 4) : blinkOperand m = some (BitVec.ofNat 2 m.toNat) := by
  rw [blinkOperand, if_neg (by omega)]
  rfl

theorem blinkOperand_of_gt {m : Byte} (h : 3 < m.toNat) : blinkOperand m = none := if_pos h

theorem blinkCommand_ofNat (c : Config) {m : Nat} (h : m < 4) : c.blinkCommand (BitVec.ofNat 2 m) = c.cmdBlink[m] := by
  have hm : (BitVec.ofNat 2 m).toFin = ⟨m, h⟩ := Fin.ext (Nat.mod_eq_of_lt h)
  exact congrArg (fun i : Fin 4 => c.cmdBlink[i]) hm

theorem execSetBlink_of_gt {m : Byte} (h : 3 < m.toNat) : execSetBlink m s = .next (s.raiseFault .configBlink) := by
  simp only [execSetBlink, blinkOperand_of_gt h]

theorem execSetBlink_of_lt {m : Byte} (h : m.toNat < 4) :
    execSetBlink m s =
      endDisplayWrite (s.busWrite s.cfg.cmdBlink[m.toNat])
        fun t => (t.writeBlinkMode (BitVec.ofNat 2 m.toNat)).complete := by
  simp only [execSetBlink, blinkOperand_of_lt h, blinkCommand_ofNat s.cfg h]

/-- The word as R184 gives it is the encoder's (R75). -/
theorem decode_setBlink (m : Byte) : decode { word := 0xA0000000#32 ||| m.setWidth 32 } = some (.setBlink m) := by
  have hword : encodeWord (.setBlink m) = 0xA0000000#32 ||| m.setWidth 32 := by
    have hop : fieldAt 28 0xA#4 = 0xA0000000#32 := by decide
    have hmode : fieldAt 0 m = m.setWidth 32 := BitVec.shiftLeft_zero _
    rw [encodeWord, wordM, hop, hmode]
  rw [← hword]
  exact decodeOfEncodeIsTheInstruction (.setBlink m)

end Transport

theorem exec_initDisplay (s : State) : exec .initDisplay s = execInitDisplay s := rfl

theorem exec_clear (s : State) (force : Bool) : exec (.clear force) s = execClear force s := rfl

/-! ### The four commands -/

/-- Settles O29: the cells are cleared before the first write, whatever the answers are. -/
theorem initializeIssuesThreeWrites : Obligations.InitializeIssuesThreeWrites := by
  refine ⟨decodeOfEncodeIsTheInstruction .initDisplay, fun s _ => ⟨fun h => ?_, fun k hk h he => ?_⟩⟩
  · rw [exec_initDisplay, execInitDisplay_of_busOk h, clearCells_afterBus]
    rfl
  · rw [exec_initDisplay, execInitDisplay_of_err hk h he, clearCells_afterBus]
    rfl

/-- Settles O27, by whether every cell is written and how the one write ends. -/
theorem showPushesTheFramebuffer : Obligations.ShowPushesTheFramebuffer := by
  refine ⟨decodeOfEncodeIsTheInstruction .showFb, fun s _ =>
    ⟨execShowFb_of_unwritten, fun a b c d hcells => ⟨fun bytes n ha => ?_, fun ha => ?_⟩⟩⟩
  · exact (execShowFb_of_cells hcells).trans (endDisplayWrite_of_ok ha _ _)
  · exact (execShowFb_of_cells hcells).trans (endDisplayWrite_of_err ha _ _)

/-- Settles O28, by whether the cleared cells are pushed and how the push ends. -/
theorem clearBlanksAndMayPush : Obligations.ClearBlanksAndMayPush := by
  refine ⟨decodeOfEncodeIsTheInstruction (.clear false), decodeOfEncodeIsTheInstruction (.clear true), fun s force _ =>
    ⟨fun hauto hforce => ?_, fun hpush => ⟨fun bytes n ha => ?_, fun ha => ?_⟩⟩⟩
  · rw [exec_clear, hforce, execClear_of_no_push hauto, clearCells_eq]
    rfl
  · rw [← clearCells_answerAt] at ha
    rw [exec_clear, execClear_of_push hpush, endDisplayWrite_of_ok ha, clearCells_afterBus]
    rfl
  · rw [← clearCells_answerAt] at ha
    rw [exec_clear, execClear_of_push hpush, endDisplayWrite_of_err ha, clearCells_afterBus]
    rfl

/-- Settles O30, by the mode's range and how the one write ends. -/
theorem setBlinkLatchesAfterTheWrite : Obligations.SetBlinkLatchesAfterTheWrite := by
  refine fun s m _ => ⟨decode_setBlink m, execSetBlink_of_gt, fun h => ⟨fun bytes n ha => ?_, fun ha => ?_⟩⟩
  · exact (execSetBlink_of_lt h).trans (endDisplayWrite_of_ok ha _ _)
  · exact (execSetBlink_of_lt h).trans (endDisplayWrite_of_err ha _ _)

end Sys2Proof.Machine
end

/-! PROOFS. Faults and errors (60_exceptions.md): the FAULTED block (R203, R211), the checks of reset (R204), the
commands that stop (R200, R242), and what a command that ends FAULTED or TRANSIENT has written (R202, R208, R209). -/

namespace Sys2Proof.Machine

/-! ### The FAULTED block -/

theorem issueNext_of_faulted {s : State} {c : Command} {rest : List Command} (hf : s.result = .faulted)
    (hc : s.commands = c :: rest) : s.issueNext = .done s.takeCommand := by
  simp only [State.issueNext, hc, if_pos hf]

theorem step_of_faulted {s : State} {c : Command} {rest : List Command} (hf : s.result = .faulted)
    (hc : s.commands = c :: rest) : step s = .next s.takeCommand := by
  rw [step, issueNext_of_faulted hf hc]

/-- A block FAULTED in `s` is so in `t`, with the same cause and no further bus transaction (R203, R211). -/
def State.staysFaulted (s t : State) : Prop :=
  s.result = .faulted → t.result = .faulted ∧ t.faultCause = s.faultCause ∧ t.busLog = s.busLog

theorem State.staysFaulted.refl (s : State) : s.staysFaulted s := fun hf => ⟨hf, rfl, rfl⟩

theorem State.staysFaulted.trans {s t u : State} (hst : s.staysFaulted t) (htu : t.staysFaulted u) : s.staysFaulted u := by
  intro hf
  obtain ⟨hft, hcause, hlog⟩ := hst hf
  obtain ⟨hfu, hcause', hlog'⟩ := htu hft
  exact ⟨hfu, hcause'.trans hcause, hlog'.trans hlog⟩

/-- The branches of R205 that write anything but the port are those of a usable block. -/
theorem step_staysFaulted {s t : State} (h : step s = .next t) : s.staysFaulted t := by
  intro hf
  rcases step_cases h with ⟨-, rfl⟩ | ⟨-, rfl⟩ | ⟨hu, -⟩ | ⟨hu, -⟩
  · exact ⟨hf, rfl, rfl⟩
  · exact ⟨hf, rfl, rfl⟩
  · exact absurd hf hu
  · exact absurd hf hu

theorem run_staysFaulted : ∀ n s t, Sys2Proof.core.run n s = .next t → s.staysFaulted t :=
  run_induction State.staysFaulted .refl (fun _ _ _ => .trans) fun _ _ => step_staysFaulted

theorem resetWith_usable {c : Config} (h : c.check = .none) : (State.resetWith c).usable := (resetWith_inv c).fault.mp h

/-- Settles O7: the port is no part of what the HOST reads, and no branch of a step leaves FAULTED. -/
theorem faultedBlockRefusesCommands : Obligations.FaultedBlockRefusesCommands := by
  refine ⟨fun s c rest hf hc => ⟨?_, rfl, fun a => rfl⟩, fun n s t hf h => run_staysFaulted n s t h hf,
    fun c => resetWith_usable⟩
  rw [step_of_faulted hf hc, takeCommand_of_commands_cons hc]

/-! ### The checks of reset -/

section Check
variable {c : Config}

theorem capacityMet_iff (c : Config) : c.capacityMet = true ↔ c.buttonCount ≤ c.digCapacity := decide_eq_true_iff

theorem calibrated_iff (c : Config) : c.calibrated = true ↔ ∀ a ∈ c.axes, a.minInput < a.maxInput := by
  simp only [Config.calibrated, List.all_eq_true, decide_eq_true_iff]

/-- Under distinct identifiers check 1 is R204's own list (log entry 8). -/
theorem paramsAdmitted_iff_of_nodup (hids : c.deviceIds.Nodup) : c.paramsAdmitted = true ↔ paramRanges c := by
  rw [paramsAdmitted_iff, and_iff_left hids]

theorem check_of_not_paramsAdmitted (h : ¬c.paramsAdmitted = true) : c.check = .configParam := by
  simp [Config.check, h]

theorem check_of_not_capacityMet (hp : c.paramsAdmitted = true) (h : ¬c.capacityMet = true) :
    c.check = .configCapacity := by
  simp [Config.check, hp, h]

theorem check_of_not_calibrated (hp : c.paramsAdmitted = true) (hcap : c.capacityMet = true)
    (h : ¬c.calibrated = true) : c.check = .configCalibration := by
  simp [Config.check, hp, hcap, h]

theorem resetWith_of_check_ne_none {cause : FaultCause} (h : c.check = cause) (hne : cause ≠ .none) :
    (State.resetWith c).result = .faulted ∧ (State.resetWith c).faultCause = cause :=
  ⟨if_neg (h ▸ hne), h⟩

theorem resetWith_of_check_none (h : c.check = .none) :
    (State.resetWith c).result = .ok ∧ (State.resetWith c).faultCause = .none :=
  ⟨if_pos h, h⟩

end Check

/-- Settles O31: each clause gives the checks before the one it names, and that one's failure. -/
theorem resetChecksTheConfigurationInOrder : Obligations.ResetChecksTheConfigurationInOrder := by
  intro c hids
  have hparams := paramsAdmitted_iff_of_nodup hids
  refine ⟨fun hp => ?_, fun hp hcap => ?_, fun hp hcap hcal => ?_, fun hp hcap hcal => ?_⟩
  · exact resetWith_of_check_ne_none (check_of_not_paramsAdmitted (mt hparams.mp hp)) (by decide)
  · have hfail : ¬c.capacityMet = true := mt (capacityMet_iff c).mp (Nat.not_le.mpr hcap)
    exact resetWith_of_check_ne_none (check_of_not_capacityMet (hparams.mpr hp) hfail) (by decide)
  · obtain ⟨a, ha, hle⟩ := hcal
    have hfail : ¬c.calibrated = true := fun h => absurd ((calibrated_iff c).mp h a ha) (Int.not_lt.mpr hle)
    exact resetWith_of_check_ne_none
      (check_of_not_calibrated (hparams.mpr hp) ((capacityMet_iff c).mpr hcap) hfail) (by decide)
  · exact resetWith_of_check_none
      ((check_none c).mpr ⟨hparams.mpr hp, (capacityMet_iff c).mpr hcap, (calibrated_iff c).mpr hcal⟩)

/-! ### Commands that stop -/

/-- A command that can use the next `n` answers of the bus has an end, unless one of these never comes (R56, R200,
R242; log entry 3). -/
def stopsOnlyByHang (s : State) (n : Nat) : Host.Outcome State Fault Refusal → Prop
  | .next _ => True
  | .fault f => f = .busHang ∧ ∃ k < n, s.answerAt k = .never
  | .refused _ => False

section Stops
variable (s : State)

theorem execSample_ne_refused (r : Refusal) : execSample s ≠ .refused r := by
  unfold execSample
  split
  · nofun
  · nofun
  · split <;> nofun

theorem execSample_stopsOnlyByHang : stopsOnlyByHang s (s.cfg.numDig + s.cfg.axisCount) (execSample s) := by
  cases h : execSample s with
  | next t => trivial
  | fault f => exact execSample_fault h
  | refused r => exact execSample_ne_refused s r h

theorem endDisplayWrite_stopsOnlyByHang (bytes : List Byte) (onOk : State → State) :
    stopsOnlyByHang s 1 (endDisplayWrite (s.busWrite bytes) onOk) := by
  rw [busWrite_eq]
  cases h : s.answerAt 0 with
  | ok b n => trivial
  | err => trivial
  | never => exact ⟨rfl, 0, Nat.one_pos, h⟩

theorem endDisplayWrites_stopsOnlyByHang (ws : List (List Byte)) (onOk : State → State) :
    stopsOnlyByHang s ws.length (endDisplayWrite (s.busWrites ws) onOk) := by
  have hspec := busWrites_spec s ws
  cases h : s.busWrites ws with
  | ok u t => trivial
  | err t => trivial
  | hung =>
    rw [h] at hspec
    exact ⟨rfl, hspec⟩

/-- Clearing the cells uses no answer of the bus. -/
theorem stopsOnlyByHang_clearCells {n : Nat} {o : Host.Outcome State Fault Refusal}
    (h : stopsOnlyByHang s.clearCells n o) : stopsOnlyByHang s n o := by
  cases o with
  | next t => trivial
  | fault f =>
    obtain ⟨hf, k, hk, hn⟩ := h
    exact ⟨hf, k, hk, clearCells_answerAt s k ▸ hn⟩
  | refused r => exact h

theorem exec_stopsOnlyByHang (i : Instr) : stopsOnlyByHang s (maxTransactions s.cfg i) (exec i s) := by
  cases i with
  | sample => exact execSample_stopsOnlyByHang s
  | encode =>
    simp only [exec, execEncode]
    split <;> trivial
  | shouldSend force =>
    simp only [exec, execShouldSend]
    split <;> trivial
  | commitSent =>
    simp only [exec, execCommitSent]
    split <;> trivial
  | render text => trivial
  | putRaw len idx val =>
    simp only [exec, execPutRaw]
    split <;> trivial
  | clear force =>
    simp only [exec, execClear]
    split
    · exact stopsOnlyByHang_clearCells s (endDisplayWrite_stopsOnlyByHang _ _ _)
    · trivial
  | showFb =>
    simp only [exec, execShowFb]
    split
    · trivial
    · exact endDisplayWrite_stopsOnlyByHang _ _ _
  | initDisplay => exact stopsOnlyByHang_clearCells s (endDisplayWrites_stopsOnlyByHang _ _ _)
  | setBlink mode =>
    simp only [exec, execSetBlink]
    split
    · trivial
    · exact endDisplayWrite_stopsOnlyByHang _ _ _

end Stops

/-- Settles O8, by the three outcomes that `stopsOnlyByHang` tells apart. -/
theorem onlyAHangStopsACommand : Obligations.OnlyAHangStopsACommand := by
  intro i s
  have hstop := exec_stopsOnlyByHang s i
  cases h : exec i s with
  | next t => exact ⟨fun _ => ⟨t, rfl⟩, nofun, nofun⟩
  | fault f =>
    rw [h] at hstop
    obtain ⟨hf, k, hk, hn⟩ := hstop
    refine ⟨fun hall => absurd hn (hall k hk), nofun, ?_⟩
    rintro _ ⟨⟩
    exact ⟨hf, k, hk, hn⟩
  | refused r =>
    rw [h] at hstop
    exact hstop.elim

/-! ### How a command ends -/

/-- The causes a decoded command raises (R201, R205). -/
def commandFault (c : FaultCause) : Prop :=
  c = .configBlink ∨ c = .putRawRange ∨ c = .putRawLength ∨ c = .uninitRead

/-- The cells when the command's first transfer begins: CLEAR and INITIALIZE clear them before it (R182, R183, R209). -/
def State.cellsAtTransfer (s : State) : Instr → Vector (Option Byte) 4
  | .clear _ => blankCells
  | .initDisplay => blankCells
  | _ => s.cells

/-- The ends of a command: completion, fault entry, which comes before any write (R202), and a failed transfer, after
which nothing more is written (R208, R209). -/
inductive CommandEnd (i : Instr) (s : State) : State → Prop
  | completes (u : State) : CommandEnd i s u.complete
  | faults {c : FaultCause} (hc : commandFault c) : CommandEnd i s (s.raiseFault c)
  | fails {es : List BusEvent} {e : BusEvent} {c : TransientCause} (hes : ∀ e' ∈ es, e'.failed = false)
      (he : e.failed = true) (hc : c = .displayWriteError ∨ i = .sample) :
      CommandEnd i s
        (({ s.afterBus (es.length + 1) (es ++ [e]) with cells := s.cellsAtTransfer i } : State).raiseTransient c)

section Ends
variable {s : State}

theorem commandEnd_uninitRead {i : Instr} : CommandEnd i s (s.raiseFault .uninitRead) :=
  .faults (.inr (.inr (.inr rfl)))

/-- The one display write of a command that leaves the cells as they are. -/
theorem commandEnd_failedWrite {i : Instr} (hcells : s.cellsAtTransfer i = s.cells) (bytes : List Byte) :
    CommandEnd i s ((s.afterBus 1 [.wrErr bytes]).raiseTransient .displayWriteError) := by
  have hend : CommandEnd i s _ := .fails (es := []) (e := .wrErr bytes) nofun rfl (.inl rfl)
  rwa [hcells] at hend

/-- The display writes of a command that clears the cells first, the last one failing. -/
theorem commandEnd_clearedFailedWrite {i : Instr} (hcells : s.cellsAtTransfer i = blankCells) {ws : List (List Byte)}
    {n : Nat} (hn : ws.length = n) (bytes : List Byte) :
    CommandEnd i s
      ((s.clearCells.afterBus (n + 1) (ws.map .wr ++ [.wrErr bytes])).raiseTransient .displayWriteError) := by
  have hok : ∀ e ∈ ws.map BusEvent.wr, e.failed = false := List.forall_mem_map.mpr fun _ _ => rfl
  have hend : CommandEnd i s _ := .fails (e := .wrErr bytes) hok rfl (.inl rfl)
  rwa [hcells, List.length_map, hn, ← clearCells_afterBus] at hend

/-- Everything a command can end in, by the ends of each. -/
theorem exec_commandEnd {i : Instr} {t : State} (h : exec i s = .next t) : CommandEnd i s t := by
  cases i with
  | sample =>
    rcases execSample_cases h with ⟨es, bytes, raws, -, -, -, -, -, rfl⟩ | ⟨es, e, c, hes, he, -, -, rfl⟩
    · exact .completes _
    · exact .fails hes he (.inr rfl)
  | encode =>
    rcases execEncode_cases h with ⟨-, rfl⟩ | ⟨x, -, rfl⟩
    · exact commandEnd_uninitRead
    · exact .completes _
  | shouldSend force =>
    rcases execShouldSend_cases h with ⟨-, rfl⟩ | ⟨r, -, rfl⟩
    · exact commandEnd_uninitRead
    · exact .completes _
  | commitSent =>
    rcases execCommitSent_cases h with ⟨-, rfl⟩ | ⟨r, -, rfl⟩
    · exact commandEnd_uninitRead
    · exact .completes _
  | render text =>
    rw [execRender_cases h]
    exact .completes _
  | putRaw len idx val =>
    rcases execPutRaw_cases h with ⟨-, rfl⟩ | ⟨-, -, rfl⟩ | ⟨-, -, rfl⟩
    · exact .faults (.inr (.inl rfl))
    · exact .faults (.inr (.inr (.inl rfl)))
    · exact .completes _
  | clear force =>
    rcases execClear_cases h with rfl | rfl | rfl
    · exact .completes _
    · exact .completes _
    · exact commandEnd_clearedFailedWrite rfl (ws := []) rfl _
  | showFb =>
    rcases execShowFb_cases h with ⟨-, rfl⟩ | ⟨a, b, c, d, -, rfl | rfl⟩
    · exact commandEnd_uninitRead
    · exact .completes _
    · exact commandEnd_failedWrite rfl _
  | initDisplay =>
    rcases execInitDisplay_cases h with rfl | ⟨k, hk, rfl⟩
    · exact .completes _
    · exact commandEnd_clearedFailedWrite rfl (List.length_take_of_le hk.le) _
  | setBlink mode =>
    rcases execSetBlink_cases h with ⟨-, rfl⟩ | ⟨-, rfl | rfl⟩
    · exact .faults (.inl rfl)
    · exact .completes _
    · exact commandEnd_failedWrite rfl _

end Ends

/-- Settles O43: of the ends of a command only fault entry leaves RESULT = FAULTED. -/
theorem faultsArePrecise : Obligations.FaultsArePrecise := by
  intro i s t h hf
  cases exec_commandEnd h with
  | completes u => nomatch hf
  | faults hc => exact ⟨rfl, hc⟩
  | fails hes he hc => nomatch hf

/-- Settles O44: of the ends of a command only a failed transfer leaves RESULT = TRANSIENT. -/
theorem transientErrorsKeepEarlierWrites : Obligations.TransientErrorsKeepEarlierWrites := by
  intro i s t h ht
  cases exec_commandEnd h with
  | completes u => nomatch ht
  | faults hc => nomatch ht
  | @fails es e c hes he hc =>
    refine ⟨⟨es, e, (List.append_assoc ..).symm, he, hes⟩, rfl, rfl, rfl, rfl, rfl, rfl, rfl, rfl, ?_, ?_, ?_⟩
    · rintro (rfl | rfl | ⟨m, rfl⟩) <;> rfl
    · rintro (⟨f, rfl⟩ | rfl) <;> rfl
    · intro hread
      refine hc.resolve_left ?_
      rintro rfl
      rcases hread with hread | hread <;> nomatch hread

end Sys2Proof.Machine

/-! PROOFS. Reset and hazards (70_reset_and_hazards.md): the sample ENCODE packs after a failed SAMPLE (R239), the cells a
short RENDER leaves after CLEAR (R236), and the independence of the report path and the display path (R235). -/

namespace Sys2Proof.Machine

/-! ### ENCODE after a failed SAMPLE (R239) -/

/-- A usable end of ENCODE tells which sample it packed: without one it faults (R20). -/
theorem encode_usable_cases {s u : State} (h : exec .encode s = .next u) (hu : u.usable) :
    ∃ x, s.sample = some x ∧ u.report = some (encodeReport s.cfg x) := by
  rcases execEncode_cases h with ⟨-, rfl⟩ | ⟨x, hx, rfl⟩
  · exact absurd rfl hu
  · exact ⟨x, hx, rfl⟩

/-- R106: a SAMPLE that ends with a transient error has not reached its latch. -/
theorem sample_of_failed_sample {s t : State} (h : exec .sample s = .next t) (ht : t.result = .transient) :
    t.sample = s.sample := by
  obtain ⟨-, -, hsample, -⟩ := transientErrorsKeepEarlierWrites .sample s t h ht
  exact hsample

/-- Settles O13: the failed SAMPLE keeps both things REPORT is a function of, the latch and the record. -/
theorem encodeAfterFailedSampleUsesTheOlderSample : Obligations.EncodeAfterFailedSampleUsesTheOlderSample := by
  intro s t u hencode hu hsample ht
  obtain ⟨x, hx, hreport⟩ := encode_usable_cases hencode hu
  have hlatch : t.sample = some x := (sample_of_failed_sample hsample ht).trans hx
  have hsame : u.report = some (encodeReport t.cfg x) := by rw [hreport, exec_cfg hsample]
  rw [exec_encode_of_sample hlatch, hsame]
  rfl

/-! ### RENDER after CLEAR (R236) -/

/-- R160: RENDER leaves alone the cells from index `vis(text)` on. -/
theorem cellWrites_renderScan_cell_of_le (s : State) {text : List Byte} {j : Nat} (hj : j < 4)
    (h : visibleCells text ≤ j) : (s.cellWrites 0 (renderScan s.cfg cellCount text)).cells[j] = s.cells[j] := by
  have hout : ¬(0 ≤ j ∧ j < 0 + (renderScan s.cfg cellCount text).length) := by
    rw [renderScan_length]
    omega
  rw [cellWrites_cell s 0 j _ hj, if_neg hout]

theorem clearCells_getElem (s : State) {j : Nat} (hj : j < 4) : s.clearCells.cells[j] = some 0x00#8 := by
  have hin : 0 ≤ j ∧ j < 0 + cellCount := by
    rw [cellCount]
    omega
  rw [State.clearCells, cellWrites_cell s 0 j _ hj, List.length_replicate, if_pos hin]
  exact List.getElem?_replicate_of_lt hj

/-- Settles O25: CLEAR blanks all four cells, and RENDER keeps those it does not reach. -/
theorem shortRenderAfterClearIsBlankPadded : Obligations.ShortRenderAfterClearIsBlankPadded := by
  intro s text _ hauto
  refine ⟨s.clearCells.complete, _, execClear_of_no_push hauto, exec_render_frame _ text, ?_, fun j hj hvis => ?_⟩
  · rw [clearCells_eq]
    rfl
  · exact (cellWrites_renderScan_cell_of_le s.clearCells.complete hj hvis).trans (clearCells_getElem s hj)

/-! ### The two paths (R235) -/

/-- The end of a bus operation with its state, if it has one, changed by `f`. -/
def BusResult.mapState {α : Type} (f : State → State) : BusResult α → BusResult α
  | .ok a s => .ok a (f s)
  | .err s => .err (f s)
  | .hung => .hung

/-- `f` leaves alone what both paths share: the configuration record, the bus, and how the last command ended (R235). -/
structure KeepsShared (f : State → State) : Prop where
  cfg : ∀ s, (f s).cfg = s.cfg
  answer : ∀ s, (f s).answerAt 0 = s.answerAt 0
  afterBus : ∀ s n es, (f s).afterBus n es = f (s.afterBus n es)
  complete : ∀ s, (f s).complete = f s.complete
  transient : ∀ s c, (f s).raiseTransient c = f (s.raiseTransient c)

theorem withDisplay_keepsShared (cells : Vector (Option Byte) 4) (blinkMode : Option (BitVec 2)) :
    KeepsShared (fun s => s.withDisplay cells blinkMode) :=
  ⟨fun _ => rfl, fun _ => rfl, fun _ _ _ => rfl, fun _ => rfl, fun _ _ => rfl⟩

theorem withReportPath_keepsShared (sample : Option Sample) (report shadow : Option (List Byte)) (send sendValid : Bool) :
    KeepsShared (fun s => s.withReportPath sample report shadow send sendValid) :=
  ⟨fun _ => rfl, fun _ => rfl, fun _ _ _ => rfl, fun _ => rfl, fun _ _ => rfl⟩

section Shared
variable {f : State → State} (hf : KeepsShared f)
include hf

/-! The bus operations, one after another: what is not shared they neither read nor write. -/

theorem transact_mapState {α : Type} (s : State) (accept : List Byte → Int → α) (okEvent : α → BusEvent)
    (errEvent : BusEvent) :
    (f s).transact accept okEvent errEvent = (s.transact accept okEvent errEvent).mapState f := by
  rw [transact_eq, transact_eq, hf.answer]
  cases s.answerAt 0 with
  | ok bytes n => exact congrArg _ (hf.afterBus s 1 _)
  | err => exact congrArg _ (hf.afterBus s 1 _)
  | never => rfl

theorem busReadBlock_mapState (s : State) (k : Nat) : (f s).busReadBlock k = (s.busReadBlock k).mapState f := by
  rw [State.busReadBlock, hf.cfg, transact_mapState hf, State.busReadBlock]

theorem busReadRaw_mapState (s : State) (j : Nat) : (f s).busReadRaw j = (s.busReadRaw j).mapState f := by
  rw [State.busReadRaw, hf.cfg, transact_mapState hf, State.busReadRaw]

theorem busWrite_mapState (s : State) (bytes : List Byte) : (f s).busWrite bytes = (s.busWrite bytes).mapState f :=
  transact_mapState hf s _ _ _

theorem readBlocks_mapState (s : State) (ks : List Nat) : (f s).readBlocks ks = (s.readBlocks ks).mapState f := by
  induction ks generalizing s with
  | nil => rfl
  | cons k ks ih =>
    rw [State.readBlocks, State.readBlocks, busReadBlock_mapState hf]
    cases s.busReadBlock k with
    | ok bytes s1 =>
      simp only [BusResult.mapState, ih]
      cases s1.readBlocks ks <;> rfl
    | err s1 => rfl
    | hung => rfl

theorem readRaws_mapState (s : State) (js : List Nat) : (f s).readRaws js = (s.readRaws js).mapState f := by
  induction js generalizing s with
  | nil => rfl
  | cons j js ih =>
    rw [State.readRaws, State.readRaws, busReadRaw_mapState hf]
    cases s.busReadRaw j with
    | ok n s1 =>
      simp only [BusResult.mapState, ih]
      cases s1.readRaws js <;> rfl
    | err s1 => rfl
    | hung => rfl

theorem busWrites_mapState (s : State) (ws : List (List Byte)) : (f s).busWrites ws = (s.busWrites ws).mapState f := by
  induction ws generalizing s with
  | nil => rfl
  | cons bytes rest ih =>
    rw [State.busWrites, State.busWrites, busWrite_mapState hf]
    cases s.busWrite bytes with
    | ok a s1 => exact ih s1
    | err s1 => rfl
    | hung => rfl

theorem endDisplayWrite_mapState {onOk : State → State} (hok : ∀ s, onOk (f s) = f (onOk s)) (r : BusResult Unit) :
    endDisplayWrite (r.mapState f) onOk = mapNext f (endDisplayWrite r onOk) := by
  cases r with
  | ok a s => exact congrArg _ (hok s)
  | err s => exact congrArg _ (hf.transient s _)
  | hung => rfl

/-- SAMPLE reads nothing but what is shared, and writes besides it the latch alone (R100, R106). -/
theorem execSample_mapNext (hlatch : ∀ s x, (f s).latchSample x = f (s.latchSample x)) (s : State) :
    execSample (f s) = mapNext f (execSample s) := by
  rw [execSample, execSample, hf.cfg, readBlocks_mapState hf]
  cases s.readBlocks (List.range s.cfg.numDig) with
  | ok bytes s1 =>
    simp only [BusResult.mapState, readRaws_mapState hf]
    cases s1.readRaws (List.range s.cfg.axisCount) with
    | ok raws s2 => simp only [mapNext, hlatch, hf.complete]
    | err s2 => simp only [mapNext, hf.transient]
    | hung => rfl
  | err s1 => simp only [BusResult.mapState, mapNext, hf.transient]
  | hung => rfl

end Shared

/-! The two paths. -/

section Paths
variable (s : State) (sample : Option Sample) (report shadow : Option (List Byte)) (send sendValid : Bool)

theorem cellWrites_withReportPath (i : Nat) (vs : List Byte) :
    (s.withReportPath sample report shadow send sendValid).cellWrites i vs =
      (s.cellWrites i vs).withReportPath sample report shadow send sendValid := by
  induction vs generalizing s i with
  | nil => rfl
  | cons v vs ih => exact ih (s.cellWrite i v) (i + 1)

theorem clearCells_withReportPath :
    (s.withReportPath sample report shadow send sendValid).clearCells =
      s.clearCells.withReportPath sample report shadow send sendValid := cellWrites_withReportPath ..

@[simp] theorem cellBytes_withReportPath :
    (s.withReportPath sample report shadow send sendValid).cellBytes = s.cellBytes := rfl

/-- R235, the report path: of the four commands only SAMPLE uses the bus, and none uses CELL or BLINK_MODE. -/
theorem exec_withDisplay {i : Instr} (hi : reportCommand i = true) (cells : Vector (Option Byte) 4)
    (blinkMode : Option (BitVec 2)) :
    exec i (s.withDisplay cells blinkMode) = mapNext (fun t => t.withDisplay cells blinkMode) (exec i s) := by
  cases i with
  | sample => exact execSample_mapNext (withDisplay_keepsShared cells blinkMode) (fun _ _ => rfl) s
  | encode =>
    simp only [exec, execEncode, withDisplay_sample]
    cases s.sample <;> rfl
  | shouldSend force =>
    simp only [exec, execShouldSend, withDisplay_report]
    cases s.report <;> rfl
  | commitSent =>
    simp only [exec, execCommitSent, withDisplay_report]
    cases s.report <;> rfl
  | render | putRaw | clear | showFb | initDisplay | setBlink => nomatch hi

/-- R235, the display path: its commands read CELL, the record and the bus only. -/
theorem exec_withReportPath {i : Instr} (hi : reportCommand i = false) :
    exec i (s.withReportPath sample report shadow send sendValid) =
      mapNext (fun t => t.withReportPath sample report shadow send sendValid) (exec i s) := by
  have hf := withReportPath_keepsShared sample report shadow send sendValid
  cases i with
  | sample | encode | shouldSend | commitSent => nomatch hi
  | render text =>
    rw [exec_render, exec_render, cellWrites_withReportPath]
    rfl
  | putRaw len idx val =>
    simp only [exec, execPutRaw]
    cases putRawFault len idx <;> rfl
  | clear force =>
    simp only [exec, execClear, clearCells_withReportPath, withReportPath_cfg]
    split
    · rw [busWrite_mapState hf, endDisplayWrite_mapState hf hf.complete]
    · rfl
  | showFb =>
    simp only [exec, execShowFb, withReportPath_cfg, cellBytes_withReportPath]
    cases s.cellBytes with
    | none => rfl
    | some cells => simp only [busWrite_mapState hf, endDisplayWrite_mapState hf hf.complete]
  | initDisplay =>
    simp only [exec, execInitDisplay_eq, clearCells_withReportPath, withReportPath_cfg]
    rw [busWrites_mapState hf, endDisplayWrite_mapState hf hf.complete]
  | setBlink mode =>
    simp only [exec, execSetBlink, withReportPath_cfg]
    cases blinkOperand mode with
    | none => rfl
    | some m =>
      simp only [busWrite_mapState hf]
      exact endDisplayWrite_mapState hf (fun _ => rfl) _

end Paths

/-- Settles O47: each path's commands commute with a change of the other path's registers. -/
theorem reportAndDisplayPathsAreIndependent : Obligations.ReportAndDisplayPathsAreIndependent := fun _ s =>
  ⟨exec_withDisplay s, fun hi _ _ _ _ _ => exec_withReportPath s _ _ _ _ _ hi⟩

end Sys2Proof.Machine
